-- ==== Sys2Proof/Word.lean ====
section
/-! DEFINITION. The words that cross the block's interface, and the values a binary64 word stands for.
Widths: spec/10_state.md R21, spec/20_memory.md R41 and R42, spec/30_encoding.md R60 and R61. -/

namespace Sys2Proof

/-- A binary64 bit pattern as one 64-bit value: bit 63 sign, bits 62:52 biased exponent, bits 51:0 fraction (R42). -/
abbrev F64 := BitVec 64

/-- A raw frame: one 32-bit value, bit i of weight 2^i (R41). -/
abbrev Frame := BitVec 32

/-- A thermocouple type code, 3 bits (R60, R72). -/
abbrev TcCode := BitVec 3

/-- A request carried as one packed 128-bit word (R61). -/
abbrev RequestWord := BitVec 128

/-- The value a binary64 word stands for (R13, R42).
`fin neg m k` is the finite number `(-1)^neg * m * 2^(k - 1074)`, so `m * 2^k` counts units of the least positive
binary64 number.
`nan` carries no payload: the spec leaves a NaN's payload unspecified (R129, R144, U11). -/
inductive Fp where
  | nan
  | inf (neg : Bool)
  | fin (neg : Bool) (m k : Nat)
deriving DecidableEq, Repr

end Sys2Proof
end

