-- ==== Sys2Proof/Syntax.lean ====
section
/-! DEFINITION. The abstract syntax of the block: the five operations of its request port (spec/30_encoding.md R62), the request
record they are carried in (R60), and the tables and parameters an instance is built from (spec/00_scope.md R9,
spec/42_linearizer.md R123). -/

namespace Sys2Proof

/-- The five operations (R62), each with the fields it reads (R64) and no other. -/
inductive Instr where
  /-- DECODE_INTERNAL (R101) -/
  | decodeInternal (frame : Frame)
  /-- DECODE_TC (R102) -/
  | decodeTc (frame : Frame)
  /-- CLASSIFY (R111) -/
  | classify (frame : Frame)
  /-- CORRECT (R130) -/
  | correct (frame : Frame) (tcType : TcCode)
  /-- FILTER (R141) -/
  | filter (x : F64)
deriving DecidableEq, Repr

/-- A request as a record with its four fields (R60). -/
structure Request where
  op : BitVec 3
  frame : Frame
  tcType : TcCode
  x : F64
deriving DecidableEq, Repr

/-- The nine coefficients of a region record (R43, R123): `To` in °C, `Vo` in mV, `p1` to `p4`, `q1` to `q3`. -/
structure Coeffs where
  To : F64
  Vo : F64
  p1 : F64
  p2 : F64
  p3 : F64
  p4 : F64
  q1 : F64
  q2 : F64
  q3 : F64
deriving DecidableEq, Repr

/-- A region above the first: its lower boundary, inclusive (R123), and its coefficients. -/
structure Region where
  lower : F64
  coeffs : Coeffs
deriving DecidableEq, Repr

/-- A region table COEFF(t) (R123): region 0, which has no lower bound, and the regions above it from the most negative
boundary to the most positive. So NREG ≥ 1 and there are NREG - 1 boundaries, by construction. -/
structure Table where
  first : Coeffs
  rest : List Region
deriving DecidableEq, Repr

/-- The linearizer's read-only store of one instance (R27, R30), less SCALE(K), which is hardwired. -/
structure Store where
  scaleT : F64
  coeffK : Table
  coeffT : Option Table
deriving DecidableEq, Repr

/-- The parameters a host supplies to build an instance (R9, R189). COEFF(K) may be missing here: the build then refuses. -/
structure Params where
  alpha : F64
  scaleT : F64
  coeffK : Option Table
  coeffT : Option Table
deriving DecidableEq, Repr

/-- The settings of an instance that was built (R30). -/
structure Settings where
  alpha : F64
  store : Store
deriving DecidableEq, Repr

/-- Why a build is refused (R185, R140, R124, R30). Only the first has a name and a code in the spec (R164). -/
inductive BuildError where
  | invalidFilterParameter
  | coeffKAbsent
  | coeffKIllFormed
  | scaleTNotFinite
  | coeffTIllFormed
deriving DecidableEq, Repr

end Sys2Proof
end

