-- ==== Sys2Proof/Decode.lean ====
section
/-! DEFINITION. The request encoding (spec/30_encoding.md R60 to R65): fields of the packed word, the total decoder, the
encoder, and the notation of R78. -/

namespace Sys2Proof

/-- The fields of a packed word (R61). The reserved bits 7:3 and 31:11 are ignored. -/
def Request.ofWord (w : RequestWord) : Request :=
  { op := w.extractLsb' 0 3
    frame := w.extractLsb' 32 32
    tcType := w.extractLsb' 8 3
    x := w.extractLsb' 64 64 }

/-- The packed word of a request, its reserved bits zero (R61). -/
def Request.toWord (r : Request) : RequestWord :=
  r.x ++ r.frame ++ 0#21 ++ r.tcType ++ 0#5 ++ r.op

/-- The reserved bits of a packed word, 7:3 and 31:11 (R61). -/
def Request.reservedMask : RequestWord := 0x000000000000000000000000FFFFF8F8

/-- Why a request spells no operation. -/
inductive DecodeError where
  /-- op is 101, 110 or 111 (R63) -/
  | reservedOp (op : BitVec 3)
deriving DecidableEq, Repr

/-- The operation a request record selects, by `op` alone (R62, R65). -/
def decodeRequest (r : Request) : Except DecodeError Instr :=
  if r.op = 0b000#3 then .ok (.decodeInternal r.frame)
  else if r.op = 0b001#3 then .ok (.decodeTc r.frame)
  else if r.op = 0b010#3 then .ok (.classify r.frame)
  else if r.op = 0b011#3 then .ok (.correct r.frame r.tcType)
  else if r.op = 0b100#3 then .ok (.filter r.x)
  else .error (.reservedOp r.op)

/-- The decoder, total on every 128-bit word (R65). -/
def decode (w : RequestWord) : Except DecodeError Instr := decodeRequest (Request.ofWord w)

/-- The request record of an operation; fields it does not read are zero (R64: their value does not matter). -/
def Instr.toRequest : Instr → Request
  | .decodeInternal frame => { op := 0b000, frame := frame, tcType := 0, x := 0 }
  | .decodeTc frame => { op := 0b001, frame := frame, tcType := 0, x := 0 }
  | .classify frame => { op := 0b010, frame := frame, tcType := 0, x := 0 }
  | .correct frame tcType => { op := 0b011, frame := frame, tcType := tcType, x := 0 }
  | .filter x => { op := 0b100, frame := 0, tcType := 0, x := x }

/-- The encoder: the packed word of an operation (R61, R62). -/
def encode (i : Instr) : RequestWord := i.toRequest.toWord

/-- The 128-bit request whose low `nbits` bits are `w`, every bit above them zero. -/
def tableWord (nbits w : Nat) : RequestWord := BitVec.ofNat 128 (w % 2 ^ nbits)

/-- The instruction the decoder reads from the request whose bits are `w`. The request is one 128-bit value with no byte order
(R41, R61). -/
def decodeTableWord (nbits w : Nat) : Option Instr :=
  match decode (tableWord nbits w) with
  | .ok i => some i
  | .error _ => none

/-- One upper-case hexadecimal digit. -/
def hexDigit (n : Nat) : Char := "0123456789ABCDEF".toList.getD n '0'

/-- `digits` hexadecimal digits of `n`, the most significant first. -/
def hexDigits : Nat → Nat → List Char
  | 0, _ => []
  | digits + 1, n => hexDigits digits (n / 16) ++ [hexDigit (n % 16)]

/-- A value as the spec writes it: 0x and its hexadecimal digits (R11, R78). -/
def hexText (digits n : Nat) : String := "0x" ++ String.ofList (hexDigits digits n)

/-- A type code as R78 writes it: K, T, or #n. -/
def tcTypeText (t : TcCode) : String :=
  if t = 0b000#3 then "K" else if t = 0b001#3 then "T" else "#" ++ String.ofList [hexDigit t.toNat]

/-- A request in the notation of R78; the FILTER operand in its hexadecimal form. -/
def requestText : Instr → String
  | .decodeInternal frame => "DECODE_INTERNAL " ++ hexText 8 frame.toNat
  | .decodeTc frame => "DECODE_TC " ++ hexText 8 frame.toNat
  | .classify frame => "CLASSIFY " ++ hexText 8 frame.toNat
  | .correct frame tcType => "CORRECT " ++ hexText 8 frame.toNat ++ ", " ++ tcTypeText tcType
  | .filter x => "FILTER " ++ hexText 16 x.toNat

end Sys2Proof
end

