-- ==== Sys2Proof/Machine/Float.lean ====
section
/-! DEFINITION. IEEE 754 binary64 as spec/00_scope.md R10 and R13 ask for it: unpacking and packing a word, rounding an exact
rational to nearest with ties to even, the four operations, the ordered comparisons, and decimal literals.
Every exact value is a rational count of UNITS, one unit being 2^-1074, the least positive binary64 number: a finite value is
then a whole number of units, and each operation is "compute exactly, round once". Subnormals are kept (decision D9). -/

namespace Sys2Proof.Machine

/-- The sign bit, biased exponent and fraction of a word (R42). -/
def signBit (b : F64) : Bool := b.msb
def exponentField (b : F64) : Nat := (b.extractLsb' 52 11).toNat
def fractionField (b : F64) : Nat := (b.extractLsb' 0 52).toNat

/-- The value of a binary64 word (R42, R13). -/
def unpack (b : F64) : Fp :=
  if exponentField b = 2047 then
    if fractionField b = 0 then .inf (signBit b) else .nan
  else if exponentField b = 0 then .fin (signBit b) (fractionField b) 0
  else .fin (signBit b) (2 ^ 52 + fractionField b) (exponentField b - 1)

/-- A word from its sign, biased exponent and fraction (R42). -/
def packFields (neg : Bool) (e f : Nat) : F64 :=
  BitVec.ofBool neg ++ BitVec.ofNat 11 e ++ BitVec.ofNat 52 f

/-- A quiet NaN: exponent all ones, top fraction bit set; its sign and the 51 other fraction bits are the given 52 bits. -/
def quietNan (payload : BitVec 52) : F64 :=
  payload.extractLsb' 51 1 ++ 0x7FF#11 ++ 1#1 ++ payload.extractLsb' 0 51

/-- The word of a value. A NaN takes the sign and payload it is given (U11: any quiet NaN). -/
def pack (nanBits : BitVec 52) : Fp → F64
  | .nan => quietNan nanBits
  | .inf neg => packFields neg 2047 0
  | .fin neg m k => packFields neg (if m < 2 ^ 52 then 0 else k + 1) (m % 2 ^ 52)

/-- How many units `m * 2^k` are. -/
def units (m k : Nat) : Nat := m * 2 ^ k

/-- A signed count of units. -/
def signed (neg : Bool) (u : Nat) : Int := if neg then -(u : Int) else u

/-- 1.0 is 2^1074 units. Irreducible, as `infinityExponent`, so that no proof computes with such a power by accident. -/
@[irreducible] def unitExponent : Nat := 1074

/-- Units in 1.0. -/
def oneUnits : Nat := 2 ^ unitExponent

/-- An infinity is ordered as 2^2098 units, which no finite value reaches: the largest is (2^53 - 1) * 2^2045 units. -/
@[irreducible] def infinityExponent : Nat := 2098

/-- The rounded significand with its exponent: 2^53 is carried into the exponent, and an exponent past the largest gives
infinity (IEEE 754 overflow under round-to-nearest). -/
def roundFinish (neg : Bool) (m k : Nat) : Fp :=
  let m' := if m = 2 ^ 53 then 2 ^ 52 else m
  let k' := if m = 2 ^ 53 then k + 1 else k
  if 2045 < k' then .inf neg else .fin neg m' k'

/-- The exponent of the binade that holds `n / d` units: 0 below 2^53 units (subnormals and the first normal binade). -/
def roundExponent (n d : Nat) : Nat := Nat.log2 (n / d) - 52

/-- Whether the remainder of `n / D` rounds the quotient up: more than half, or half with an odd quotient. -/
def roundsUp (n D : Nat) : Bool :=
  decide (D < 2 * (n % D)) || (decide (2 * (n % D) = D) && decide (n / D % 2 = 1))

/-- The binary64 value nearest to `n / d` units, ties to even (R13). `d` is positive wherever it is called. -/
def roundUnits (neg : Bool) (n d : Nat) : Fp :=
  let k := roundExponent n d
  let D := d * 2 ^ k
  roundFinish neg (if roundsUp n D then n / D + 1 else n / D) k

/-- The binary64 value nearest to the decimal or integer fraction `num / den` (R10). -/
def literal (neg : Bool) (num den : Nat) : Fp := roundUnits neg (num * oneUnits) den

/-- `f64(n)` for an integer n (R13): exact for magnitudes below 2^53; f64(0) is +0.0 (R103). -/
def f64 (n : Int) : Fp := literal (decide (n < 0)) n.natAbs 1

/-- Sign flip. -/
def fneg : Fp → Fp
  | .nan => .nan
  | .inf s => .inf (!s)
  | .fin s m k => .fin (!s) m k

/-- The rounded sum of two finite values. An exact zero sum is -0.0 only when both operands are negative zeros. -/
def addFinite (s : Bool) (u : Nat) (t : Bool) (v : Nat) : Fp :=
  let z := signed s u + signed t v
  if z = 0 then .fin (s && t) 0 0 else roundUnits (decide (z < 0)) z.natAbs 1

/-- `fadd(a, b)` (R13). -/
def fadd : Fp → Fp → Fp
  | .nan, _ => .nan
  | .inf _, .nan => .nan
  | .inf s, .inf t => if s = t then .inf s else .nan
  | .inf s, .fin _ _ _ => .inf s
  | .fin _ _ _, .nan => .nan
  | .fin _ _ _, .inf t => .inf t
  | .fin s m k, .fin t m' k' => addFinite s (units m k) t (units m' k')

/-- `fsub(a, b)` (R13). -/
def fsub (a b : Fp) : Fp := fadd a (fneg b)

/-- `fmul(a, b)` (R13). The product of u and v units is u*v / 2^1074 units. -/
def fmul : Fp → Fp → Fp
  | .nan, _ => .nan
  | .inf _, .nan => .nan
  | .inf s, .inf t => .inf (s != t)
  | .inf s, .fin t m _ => if m = 0 then .nan else .inf (s != t)
  | .fin _ _ _, .nan => .nan
  | .fin s m _, .inf t => if m = 0 then .nan else .inf (s != t)
  | .fin s m k, .fin t m' k' => roundUnits (s != t) (units m k * units m' k') oneUnits

/-- `fdiv(a, b)` (R13, R129: a zero divisor gives an infinity, or NaN for 0/0). -/
def fdiv : Fp → Fp → Fp
  | .nan, _ => .nan
  | .inf _, .nan => .nan
  | .inf _, .inf _ => .nan
  | .inf s, .fin t _ _ => .inf (s != t)
  | .fin _ _ _, .nan => .nan
  | .fin s _ _, .inf t => .fin (s != t) 0 0
  | .fin s m k, .fin t m' k' =>
    if m' = 0 then (if m = 0 then .nan else .inf (s != t))
    else roundUnits (s != t) (units m k * oneUnits) (units m' k')

/-- Where a value stands in the order of the numbers, in units; an infinity stands past every finite value, NaN nowhere. -/
def orderKey : Fp → Option Int
  | .nan => none
  | .inf s => some (signed s (2 ^ infinityExponent))
  | .fin s m k => some (signed s (units m k))

/-- `ge(a, b)` (R13): ordered, false whenever either operand is NaN. -/
def fge (a b : Fp) : Bool :=
  match orderKey a, orderKey b with
  | some x, some y => decide (y ≤ x)
  | _, _ => false

/-- `lt(a, b)` (R13): ordered, false whenever either operand is NaN. -/
def flt (a b : Fp) : Bool :=
  match orderKey a, orderKey b with
  | some x, some y => decide (x < y)
  | _, _ => false

/-- Whether a word is a finite number. -/
def isFinite (b : F64) : Bool := decide (exponentField b ≠ 2047)

/-- Whether a word is a NaN. -/
def isNan (b : F64) : Bool := decide (exponentField b = 2047) && decide (fractionField b ≠ 0)

end Sys2Proof.Machine
end

