-- ==== Sys2Proof/Machine/Constants.lean ====
section
/-! DEFINITION. The fixed constants of the block (spec/00_scope.md R9 and R10): each decimal constant is the binary64 nearest to
it. -/

namespace Sys2Proof.Machine

/-- CJ_LSB, 0.0625 °C per code (R9). -/
def cjLsb : Fp := literal false 625 10000

/-- TC_LSB, 0.25 °C per code (R9). -/
def tcLsb : Fp := literal false 25 100

/-- The constant 1.0 of R127 and R141. -/
def one : Fp := literal false 1 1

/-- +0.0 (R13). -/
def posZero : F64 := 0#64

/-- SCALE(K), hardwired: the binary64 nearest 0.041276 mV/°C (R30, R121). -/
def scaleK : F64 := pack 0 (literal false 41276 1000000)

/-- The binary64 nearest -3.554 and the one nearest 4.096, in mV: the region every COEFF(K) must contain (R124). -/
def sourceRegionLower : F64 := pack 0 (literal true 3554 1000)
def sourceRegionUpper : F64 := pack 0 (literal false 4096 1000)

end Sys2Proof.Machine
end

