-- ==== Sys2Proof/Machine/Lut.lean ====
section
/-! DEFINITION. The linearizer's look-up table: its records (spec/20_memory.md R43), its boundaries (spec/42_linearizer.md R123)
and region selection (R125). -/

namespace Sys2Proof.Machine

/-- NREG(t) (R123). -/
def nreg (t : Table) : Nat := t.rest.length + 1

/-- The boundaries b_1 to b_(NREG-1), in mV (R123). -/
def boundaries (t : Table) : List F64 := t.rest.map Region.lower

/-- The coefficient records of regions 0 to NREG-1 (R43). -/
def records (t : Table) : List Coeffs := t.first :: t.rest.map Region.coeffs

/-- The loop of R125 from index `i`: a boundary at or below `v` moves on by one, the first boundary above `v` exits. -/
def selectLoop (v : Fp) (i : Nat) : List F64 → Nat
  | [] => i
  | b :: bs => if fge v (unpack b) then selectLoop v (i + 1) bs else i

/-- `select(t, v)` (R125). -/
def select (t : Table) (v : Fp) : Nat := selectLoop v 0 (boundaries t)

theorem selectLoop_le (v : Fp) (bs : List F64) : ∀ i, selectLoop v i bs ≤ i + bs.length := by
  induction bs with
  | nil => intro i; simp [selectLoop]
  | cons b bs ih =>
    intro i
    have := ih (i + 1)
    simp only [selectLoop, List.length_cons]
    split <;> omega

theorem records_length (t : Table) : (records t).length = nreg t := by
  simp [records, nreg]

/-- Selection is always in range (R43, R126). -/
theorem select_lt_nreg (t : Table) (v : Fp) : select t v < nreg t := by
  have := selectLoop_le v (boundaries t) 0
  simp only [boundaries, List.length_map] at this
  simp only [select, nreg, boundaries]
  omega

/-- LUT(t, i) at the index `select` gives for `v` (R43): an out-of-range read cannot occur. -/
def lutSelected (t : Table) (v : Fp) : Coeffs :=
  (records t)[select t v]'(by rw [records_length]; exact select_lt_nreg t v)

end Sys2Proof.Machine
end

