-- ==== Sys2Proof/Machine/Check.lean ====
section
/-! DEFINITION. The checks an instance must pass to be built: ALPHA (spec/43_smoother.md R140), well-formed tables
(spec/42_linearizer.md R124), and their order (spec/70_reset_and_hazards.md R185). -/

namespace Sys2Proof.Machine

/-- 0 ≤ ALPHA ≤ 1 by ordered comparisons, so NaN fails (R140). -/
def alphaLegal (alpha : F64) : Bool :=
  fge (unpack alpha) (unpack posZero) && fge one (unpack alpha)

/-- Strictly increasing boundaries (R124). -/
def increasing : List F64 → Bool
  | a :: b :: bs => flt (unpack a) (unpack b) && increasing (b :: bs)
  | _ => true

/-- All nine coefficients finite (R123). -/
def coeffsFinite (c : Coeffs) : Bool :=
  isFinite c.To && isFinite c.Vo && isFinite c.p1 && isFinite c.p2 && isFinite c.p3 && isFinite c.p4
    && isFinite c.q1 && isFinite c.q2 && isFinite c.q3

/-- A well-formed table: finite, strictly increasing boundaries and finite coefficients (R124). -/
def tableWellFormed (t : Table) : Bool :=
  (boundaries t).all isFinite && increasing (boundaries t) && (records t).all coeffsFinite

/-- Whether a list of boundaries has `lo` immediately below `hi`. -/
def hasAdjacent (lo hi : F64) : List F64 → Bool
  | a :: b :: bs => (a == lo && b == hi) || hasAdjacent lo hi (b :: bs)
  | _ => false

/-- A well-formed COEFF(K): well-formed, and with the source's region (R124). -/
def tableKWellFormed (t : Table) : Bool :=
  tableWellFormed t && hasAdjacent sourceRegionLower sourceRegionUpper (boundaries t)

/-- COEFF(T) is absent or well-formed (spec/10_state.md R30, R185 point 3). -/
def coeffTLegal : Option Table → Bool
  | none => true
  | some t => tableWellFormed t

/-- The first check of R185 that an instance's settings fail, in the order R185 gives. SCALE(T) is a finite binary64 whether
COEFF(T) is present or not (R30). DEDUCED, log entry 9. -/
def settingsError (c : Settings) : Option BuildError :=
  if !alphaLegal c.alpha then some .invalidFilterParameter
  else if !tableKWellFormed c.store.coeffK then some .coeffKIllFormed
  else if !isFinite c.store.scaleT then some .scaleTNotFinite
  else if !coeffTLegal c.store.coeffT then some .coeffTIllFormed
  else none

/-- What R185 answers for the parameters a host supplies: the settings of the instance, or the refusal. -/
def checkParams (p : Params) : Except BuildError Settings :=
  match p.coeffK with
  | none => if !alphaLegal p.alpha then .error .invalidFilterParameter else .error .coeffKAbsent
  | some k =>
    let c : Settings := { alpha := p.alpha, store := { scaleT := p.scaleT, coeffK := k, coeffT := p.coeffT } }
    match settingsError c with
    | some e => .error e
    | none => .ok c

end Sys2Proof.Machine
end

