-- ==== Sys2Proof/WellFormed.lean ====
section
/-! DEFINITION. What is well-formed: an instruction, a region table, and the settings of an instance. -/

namespace Sys2Proof

/-- Every instruction is well-formed: each operand at every value its field can hold is a legal request (R64, R65, R72), and the
operand types are the fields' widths. A type code without a table is a legal request that CORRECT answers with an error. -/
def Instr.wellFormed : Instr → Bool
  | .decodeInternal _ => true
  | .decodeTc _ => true
  | .classify _ => true
  | .correct _ _ => true
  | .filter _ => true

/-- A well-formed region table (R124). -/
abbrev Table.wellFormed (t : Table) : Bool := Machine.tableWellFormed t

/-- A well-formed type-K region table (R124). -/
abbrev Table.wellFormedK (t : Table) : Bool := Machine.tableKWellFormed t

/-- Settings an instance may be built with (R185, and R30's legal values). -/
abbrev Settings.legal (c : Settings) : Bool := (Machine.settingsError c).isNone

end Sys2Proof
end

