-- ==== Sys2Proof/Config.lean ====
section
/-! DEFINITION. What the spec leaves to the implementation. The parameters ALPHA, SCALE_T, COEFF_K and COEFF_T are OPEN
(spec/00_scope.md R9; 92_eei_decisions.md D11, D13, D14): the built instance has some legal settings, and nothing else is known of
them. NaN payloads are unspecified (93_implementation_defined.md U11): they are free values. -/

namespace Sys2Proof

/-- A coefficient record of zeros, used only to show that legal settings exist. -/
def Config.zeroCoeffs : Coeffs := ⟨0, 0, 0, 0, 0, 0, 0, 0, 0⟩

/-- Some legal settings, used only to show that legal settings exist. -/
def Config.someSettings : Settings :=
  { alpha := 0
    store :=
      { scaleT := 0
        coeffK :=
          { first := zeroCoeffs
            rest := [⟨Machine.sourceRegionLower, zeroCoeffs⟩, ⟨Machine.sourceRegionUpper, zeroCoeffs⟩] }
        coeffT := none } }

/-- Settings that pass the build checks (R185, R30). The default values only show that the type is not empty. -/
structure LegalSettings where
  settings : Settings := Config.someSettings
  legal : settings.legal = true := by decide +kernel
deriving Inhabited

/-- DESIGN CHOICE, log entry 1. The settings the instance was built with: ALPHA, SCALE_T, COEFF_K and COEFF_T are open
parameters, so this constant has no body and only its legality (R185, R30) is known. -/
opaque Config.built : LegalSettings

/-- Log entry 2. The sign and payload of a NaN that CORRECT returns: free (U11), a function of what CORRECT reads, namely the
read-only store, the type code and the TC field (R130, R132). -/
opaque Config.correctNan : Store → TcCode → BitVec 14 → BitVec 52

/-- Log entry 2. The sign and payload of a NaN that FILTER returns: free (U11), a function of what FILTER reads, namely alpha,
prev and x (R141). -/
opaque Config.filterNan : F64 → F64 → F64 → BitVec 52

end Sys2Proof
end

