-- ==== Sys2Proof/Machine/State.lean ====
section
/-! DEFINITION. The state of one instance (spec/10_state.md R31), its response port and the host's events (R21), and the reset
state (spec/70_reset_and_hazards.md R181, R183). -/

namespace Sys2Proof.Machine

/-- Fault kinds (spec/30_encoding.md R73): result values of CLASSIFY, not errors. -/
inductive FaultKind where
  | none
  | openCircuit
  | shortToGnd
  | shortToVcc
  | unspecified
deriving DecidableEq, Repr

/-- The status names of R74. -/
inductive Status where
  | ok
  | unsupportedThermocoupleType
  | illegalOperation
  | invalidFilterParameter
deriving DecidableEq, Repr

/-- The errors a request can raise (spec/60_exceptions.md R160). InvalidFilterParameter is not among them: it never occurs at run
time (R164). -/
inductive RunError where
  /-- CORRECT with a type whose table is absent (R163) -/
  | unsupportedThermocoupleType
  /-- a reserved op code (R162) -/
  | illegalOperation
deriving DecidableEq, Repr

/-- A response (spec/30_encoding.md R75): a result under status OK, or an error, whose result field carries no value (R76). -/
inductive Response where
  | ok (result : BitVec 64)
  | error (e : RunError)
deriving DecidableEq, Repr

/-- What the host can do to a built instance (spec/70_reset_and_hazards.md R189). -/
inductive HostEvent where
  /-- one request, as its packed word (R61) -/
  | request (w : RequestWord)
  /-- a reset between two requests (R180, R182) -/
  | reset
  /-- a request that a reset cuts off: its response was not delivered when the reset arrived (R182) -/
  | requestCutByReset (w : RequestWord)
deriving DecidableEq, Repr

/-- The state of one instance, with its ports. -/
structure State where
  /-- the smoother register, binary64 (R25) -/
  prev : F64
  /-- the smoother weight, binary64, written by nothing at run time (R26) -/
  alpha : F64
  /-- the linearizer's read-only store, less the hardwired SCALE(K) (R27, R30) -/
  store : Store
  /-- the response port: the response of the latest event; nothing if that event gave none, or before any event (R21, R180) -/
  rsp : Option Response
  /-- the host's events still to come, the next one first (R48); an input, not state of the block (R29) -/
  inputs : List HostEvent
deriving DecidableEq, Repr

/-- The faults of a step. There are none: the block has no halt state (R19), no trap (R169) and no undefined operation, and its
errors are responses (R161). -/
inductive Fault where
deriving DecidableEq, Repr

/-- The refusals of a step. -/
inductive Refusal where
  /-- Raised by an arm of `exec` whose instruction has no meaning yet. Safe. No arm raises it. -/
  | notModelled (mnemonic : String)
deriving DecidableEq, Repr

/-- The state an instance is built in: power-on state = reset state (R181, R183). -/
def State.powerOn (c : Settings) : State :=
  { prev := posZero, alpha := c.alpha, store := c.store, rsp := none, inputs := [] }

/-- The state right after reset: `prev` is +0.0, the settings are as built (R183), nothing has been asked or answered. -/
def State.reset : State := State.powerOn Config.built.settings

/-- Write the smoother register. -/
def State.withPrev (s : State) (v : F64) : State := { s with prev := v }

/-- Drive the response port. -/
def State.withRsp (s : State) (r : Option Response) : State := { s with rsp := r }

/-- The events still to come. -/
def State.withInputs (s : State) (es : List HostEvent) : State := { s with inputs := es }

/-- The settings of an instance. -/
def State.settings (s : State) : Settings := { alpha := s.alpha, store := s.store }

end Sys2Proof.Machine
end

