-- ==== Sys2Proof/Machine/Operands.lean ====
section
/-! DEFINITION. The operand fields of a frame (spec/30_encoding.md R66 to R69) and the integer primitives they are read with
(spec/00_scope.md R12). -/

namespace Sys2Proof.Machine

/-- `sext_N(v)`: v − 2^N if v[N−1] = 1, else v (R12). -/
def sext {N : Nat} (v : BitVec N) : Int := if v.msb then (v.toNat : Int) - 2 ^ N else v.toNat

/-- `~_N(v)`: the N-bit complement (2^N − 1) − v, as an integer (R12). -/
def complement {N : Nat} (v : BitVec N) : Int := (2 ^ N - 1) - (v.toNat : Int)

/-- `enc_N(v) = v mod 2^N` (R104). -/
def encField (N : Nat) (v : Int) : BitVec N := BitVec.ofInt N v

/-- `zext_64(v)` (R12, R77). -/
def zext64 {N : Nat} (v : BitVec N) : BitVec 64 := BitVec.ofNat 64 v.toNat

/-- The thermocouple field, frame[31:18] (R66). -/
def tcField (frame : Frame) : BitVec 14 := frame.extractLsb' 18 14

/-- The cold-junction field, frame[15:4] (R66; 90_conflicts.md C1). -/
def cjField (frame : Frame) : BitVec 12 := frame.extractLsb' 4 12

/-- The global fault bit, frame[16] (R69; 90_conflicts.md C1). -/
def faultBit (frame : Frame) : BitVec 1 := frame.extractLsb' 16 1

/-- The cause field, frame[2:0] (R69). -/
def causeField (frame : Frame) : BitVec 3 := frame.extractLsb' 0 3

/-- `tc_code` (R67). -/
def tcCode (frame : Frame) : Int := sext (tcField frame)

/-- `cj_code` (R68). -/
def cjCode (frame : Frame) : Int := sext (cjField frame)

end Sys2Proof.Machine
end

