-- ==== Sys2Proof/Machine/Flags.lean ====
section
/-! DEFINITION. The block has no condition codes or sticky flags (spec/10_state.md R24). This file holds the codes that stand in
their place on the interface: fault kinds (spec/30_encoding.md R73) and statuses (R74), and the response's two fields (R75, R76). -/

namespace Sys2Proof.Machine

/-- The fault kind of the fault bit and the cause field (spec/41_fault_classifier.md R111). -/
def kindOf (fault : BitVec 1) (cause : BitVec 3) : FaultKind :=
  if fault = 0#1 then .none
  else if cause = 0b001#3 then .openCircuit
  else if cause = 0b010#3 then .shortToGnd
  else if cause = 0b011#3 then .shortToVcc
  else .unspecified

/-- The code of a fault kind (R73). -/
def kindCode : FaultKind → BitVec 3
  | .none => 0
  | .openCircuit => 1
  | .shortToGnd => 2
  | .shortToVcc => 3
  | .unspecified => 4

/-- The code of a status (R74). -/
def statusCode : Status → BitVec 2
  | .ok => 0b00
  | .unsupportedThermocoupleType => 0b01
  | .illegalOperation => 0b10
  | .invalidFilterParameter => 0b11

/-- The status of a run-time error (R163, R162). -/
def errorStatus : RunError → Status
  | .unsupportedThermocoupleType => .unsupportedThermocoupleType
  | .illegalOperation => .illegalOperation

/-- The status of a build refusal that has a code (R164); a table's refusal has none. -/
def buildErrorStatus : BuildError → Option Status
  | .invalidFilterParameter => some .invalidFilterParameter
  | .coeffKAbsent => none
  | .coeffKIllFormed => none
  | .scaleTNotFinite => none
  | .coeffTIllFormed => none

/-- `rsp.status` (R74, R76). -/
def rspStatus : Response → Status
  | .ok _ => .ok
  | .error e => errorStatus e

/-- `rsp.result` as the wire carries it (R75): zero when the status is not OK (R76). -/
def rspResult : Response → BitVec 64
  | .ok result => result
  | .error _ => 0

/-- A response as one 66-bit word (R75). -/
def rspWord (r : Response) : BitVec 66 := statusCode (rspStatus r) ++ rspResult r

end Sys2Proof.Machine
end

