-- ==== Sys2Proof/Machine/Ops.lean ====
section
/-! DEFINITION. The operations the meanings share: answering a request, raising an error, taking a reset, reading the store, and
the linearizer's arithmetic. -/

namespace Sys2Proof.Machine

/-- What a meaning answers. -/
abbrev Result := Host.Outcome State Fault Refusal

/-- `respond(OK, result)` (spec/00_scope.md R14). -/
def respond (result : BitVec 64) (s : State) : Result := .next (s.withRsp (some (.ok result)))

/-- `raise E`: respond with the error's status and a zero result, and write no state (spec/60_exceptions.md R161). It saves
nothing and transfers control nowhere (R169), and there is no return from it (R170). -/
def raise (e : RunError) (s : State) : Result := .next (s.withRsp (some (.error e)))

/-- Reset: `prev <- +0.0` and nothing else; no response (spec/70_reset_and_hazards.md R180). -/
def takeReset (s : State) : Result := .next ((s.withPrev posZero).withRsp none)

/-- SCALE(t) and COEFF(t) of a type code, where its table is present (spec/30_encoding.md R72, R27). -/
def storeEntry (st : Store) (t : TcCode) : Option (F64 × Table) :=
  if t = 0b000#3 then some (scaleK, st.coeffK)
  else if t = 0b001#3 then st.coeffT.map (fun table => (st.scaleT, table))
  else none

/-- The cold-junction temperature of a frame in °C (R101). -/
def internalCelsius (frame : Frame) : Fp := fmul (f64 (cjCode frame)) cjLsb

/-- The chip's linear approximation of the thermocouple temperature in °C (R102). -/
def approxCelsius (frame : Frame) : Fp := fmul (f64 (tcCode frame)) tcLsb

/-- The voltage of a reading in mV (spec/42_linearizer.md R122). -/
def voltage (frame : Frame) (scale : F64) : Fp := fmul (approxCelsius frame) (unpack scale)

/-- The inverse rational polynomial: each line one rounded operation, in this order (R127). -/
def poly (r : Coeffs) (v : Fp) : Fp :=
  let dV := fsub v (unpack r.Vo)
  let n1 := fadd (unpack r.p3) (fmul dV (unpack r.p4))
  let n2 := fadd (unpack r.p2) (fmul dV n1)
  let n3 := fadd (unpack r.p1) (fmul dV n2)
  let num := fmul dV n3
  let d1 := fadd (unpack r.q2) (fmul dV (unpack r.q3))
  let d2 := fadd (unpack r.q1) (fmul dV d1)
  let den := fadd one (fmul dV d2)
  fadd (unpack r.To) (fdiv num den)

/-- The corrected temperature of a frame with a type's scale and table (R130). -/
def corrected (frame : Frame) (scale : F64) (table : Table) : Fp :=
  let v := voltage frame scale
  poly (lutSelected table v) v

/-- One step of the smoother: `alpha * prev + (1 - alpha) * x`, two products and then one sum (spec/43_smoother.md R141). -/
def smoothed (alpha prev x : F64) : Fp :=
  let a := fmul (unpack alpha) (unpack prev)
  let w := fsub one (unpack alpha)
  let b := fmul w (unpack x)
  fadd a b

/-- The word FILTER writes and returns; a NaN's sign and payload are free (R144). -/
def filterWord (alpha prev x : F64) : F64 := pack (Config.filterNan alpha prev x) (smoothed alpha prev x)

end Sys2Proof.Machine
end

