-- ==== Sys2Proof/Machine/FaultClassifier.lean ====
section
/-! DEFINITION. The fault_classifier sub-block: CLASSIFY (spec/41_fault_classifier.md). A fault kind is a result, not an error
(R114). -/

namespace Sys2Proof.Machine

/-- CLASSIFY (R111). -/
def execClassify (frame : Frame) (s : State) : Result :=
  respond (zext64 (kindCode (kindOf (faultBit frame) (causeField frame)))) s

end Sys2Proof.Machine
end

