-- ==== Sys2Proof/Machine/FrameDecoder.lean ====
section
/-! DEFINITION. The frame_decoder sub-block: DECODE_INTERNAL and DECODE_TC (spec/40_frame_decoder.md). Neither value is ever NaN
(R103), so the sign and payload given to `pack` are never used. -/

namespace Sys2Proof.Machine

/-- DECODE_INTERNAL (R101). -/
def execDecodeInternal (frame : Frame) (s : State) : Result := respond (pack 0 (internalCelsius frame)) s

/-- DECODE_TC (R102). -/
def execDecodeTc (frame : Frame) (s : State) : Result := respond (pack 0 (approxCelsius frame)) s

end Sys2Proof.Machine
end

