-- ==== Sys2Proof/Machine/Linearizer.lean ====
section
/-! DEFINITION. The polynomial_linearizer_with_lut sub-block: CORRECT (spec/42_linearizer.md). -/

namespace Sys2Proof.Machine

/-- CORRECT (R130): the type is checked before anything is computed; a NaN result's sign and payload are free (R129). -/
def execCorrect (frame : Frame) (tcType : TcCode) (s : State) : Result :=
  match storeEntry s.store tcType with
  | none => raise .unsupportedThermocoupleType s
  | some (scale, table) =>
    respond (pack (Config.correctNan s.store tcType (tcField frame)) (corrected frame scale table)) s

end Sys2Proof.Machine
end

