-- ==== Sys2Proof/Machine/Smoother.lean ====
section
/-! DEFINITION. The exponential_smoother_iir sub-block: FILTER (spec/43_smoother.md). -/

namespace Sys2Proof.Machine

/-- FILTER (R141): `prev` takes the value returned. -/
def execFilter (x : F64) (s : State) : Result :=
  let out := filterWord s.alpha s.prev x
  respond out (s.withPrev out)

end Sys2Proof.Machine
end

