-- ==== Sys2Proof/Machine/Dispatch.lean ====
section
/-! DEFINITION. One arm per operation (spec/30_encoding.md R62). -/

namespace Sys2Proof.Machine

def exec (i : Instr) (s : State) : Host.Outcome State Fault Refusal :=
  match i with
  | .decodeInternal frame => Sys2Proof.Machine.execDecodeInternal frame s
  | .decodeTc frame => Sys2Proof.Machine.execDecodeTc frame s
  | .classify frame => Sys2Proof.Machine.execClassify frame s
  | .correct frame tcType => Sys2Proof.Machine.execCorrect frame tcType s
  | .filter x => Sys2Proof.Machine.execFilter x s

end Sys2Proof.Machine
end

