-- ==== Sys2Proof/Machine/Serve.lean ====
section
/-! DEFINITION. Serving one event of the host: a request is decoded and executed as one atomic step (spec/10_state.md R20), a reserved
op code is answered with IllegalOperation (spec/30_encoding.md R65), a reset is taken between requests
(spec/70_reset_and_hazards.md R182). -/

namespace Sys2Proof.Machine

/-- Serve one request word (R65). -/
def serveRequest (w : RequestWord) (s : State) : Result :=
  match decode w with
  | .ok i => exec i s
  | .error _ => raise .illegalOperation s

/-- Serve one event. A request cut off by a reset has no effect; the reset has its own (R182). -/
def serve (e : HostEvent) (s : State) : Result :=
  match e with
  | .request w => serveRequest w s
  | .reset => takeReset s
  | .requestCutByReset _ => takeReset s

/-- An event in the words of R78: a request in its own notation, RESET for a reset; a reserved op code has no notation. -/
def eventText : HostEvent → Option String
  | .request w =>
    match decode w with
    | .ok i => some (requestText i)
    | .error _ => none
  | .reset => some "RESET"
  | .requestCutByReset _ => some "RESET"

end Sys2Proof.Machine
end

