-- ==== Sys2Proof/Machine/Step.lean ====
section
/-! DEFINITION. One step: the block serves the host's next event (spec/00_scope.md R17, spec/20_memory.md R48). -/

namespace Sys2Proof.Machine

/-- The block serves the event at the head of `inputs`. With no event to serve nothing happens: the block has no halt state and no
pending work (R19). DESIGN CHOICE, log entry 4. -/
def step (s : State) : Host.Outcome State Fault Refusal :=
  match s.inputs with
  | [] => .next s
  | e :: rest => serve e (s.withInputs rest)

/-- `s` with the request whose bits are `w` put before the host's other events, so that the next step serves it. -/
def State.withFetchWord (s : State) (nbits w : Nat) : State :=
  s.withInputs (.request (tableWord nbits w) :: s.inputs)

end Sys2Proof.Machine
end

