-- ==== Sys2Proof/Machine/Build.lean ====
section
/-! DEFINITION. Building an instance from the parameters a host supplies (spec/70_reset_and_hazards.md R185, R189). It is the
host's action before any step: a refused build gives no instance. -/

namespace Sys2Proof.Machine

/-- The instance built from `p`, in the reset state (R181), or the refusal R185 gives. -/
def build (p : Params) : Except BuildError State :=
  match checkParams p with
  | .error e => .error e
  | .ok c => .ok (State.powerOn c)

end Sys2Proof.Machine
end

