-- ==== Sys2Proof/Safety.lean ====
section
/-! DEFINITION. The terms claims are stated in: legal instances, runs over the host's events, and the smoother's history. -/

namespace Sys2Proof.Machine

/-- The one form a value of a binary64 word has: significand below 2^53, exponent in range, and no significand below 2^52 except
in the lowest binade, where the subnormals stand (R42). -/
def Canonical : Fp → Prop
  | .nan => True
  | .inf _ => True
  | .fin _ m k => m < 2 ^ 53 ∧ k ≤ 2045 ∧ (k = 0 ∨ 2 ^ 52 ≤ m)

/-- The word `b` is the finite number `num / den`: its units times `den` are `num` times the units of 1.0. -/
def HasValue (b : F64) (num : Int) (den : Nat) : Prop :=
  isFinite b = true ∧ ∃ z, orderKey (unpack b) = some z ∧ z * den = num * oneUnits

/-- If the word is a NaN, it is a quiet one (93_implementation_defined.md U11). -/
def QuietIfNan (b : F64) : Prop := isNan b = true → b.getLsbD 51 = true

/-- Region `i` of the table covers `v`: b_i ≤ v < b_(i+1), with no lower bound for region 0 and no upper bound for the last
(spec/42_linearizer.md R123). -/
def Covers (t : Table) (i : Nat) (v : Fp) : Prop :=
  (i = 0 ∨ ∃ b, (boundaries t)[i - 1]? = some b ∧ fge v (unpack b) = true) ∧
  (i + 1 = nreg t ∨ ∃ b, (boundaries t)[i]? = some b ∧ flt v (unpack b) = true)

/-- The settings of the instance pass the build checks (spec/70_reset_and_hazards.md R185, spec/10_state.md R30). -/
def State.Legal (s : State) : Prop := s.settings.legal = true

/-- The invariant of an instance: its settings are legal, and neither `prev` nor a result on the response port is ever a
signalling NaN. -/
def State.Inv (s : State) : Prop :=
  s.Legal ∧ QuietIfNan s.prev ∧ ∀ b, s.rsp = some (.ok b) → QuietIfNan b

/-- What no event may change: the settings (spec/10_state.md R30). -/
def SameSettings (s t : State) : Prop := t.alpha = s.alpha ∧ t.store = s.store

/-- Serve a list of events in order, collecting the responses (spec/20_memory.md R48, spec/00_scope.md R19). -/
def serveAll (s : State) : List HostEvent → State × List Response
  | [] => (s, [])
  | e :: es =>
    match serve e s with
    | .next t =>
      let r := serveAll t es
      (r.1, t.rsp.toList ++ r.2)
    | .fault _ => (s, [])
    | .refused _ => (s, [])

/-- Whether an event is a reset, cutting off a request or not. -/
def HostEvent.isReset : HostEvent → Bool
  | .request _ => false
  | .reset => true
  | .requestCutByReset _ => true

/-- The operand of an event that is a FILTER request. -/
def filterOperand : HostEvent → Option F64
  | .request w =>
    match decode w with
    | .ok (.filter x) => some x
    | _ => none
  | _ => none

/-- `y_n` after the inputs `x_1 … x_n`, from `y_0` (spec/43_smoother.md R145). -/
def history (alpha y0 : F64) (xs : List F64) : F64 := xs.foldl (fun y x => filterWord alpha y x) y0

end Sys2Proof.Machine
end

