-- ==== Sys2Proof/Certificates/Slice0/Obligations.lean ====
section
/-! DEFINITION. The statements for the provers. Each docstring names the rule of spec/ it formalises. -/

section

open Sys2Proof Sys2Proof.Machine

/-! ### Requests and their encoding -/

/-- Decoding the packed word of any operation gives it back, with every operand at every value (spec/30_encoding.md section 1). -/
def Obligations.DecodeOfEncodeIsTheInstruction : Prop :=
  ∀ i : Instr, i.wellFormed = true → decode (encode i) = .ok i

/-- Words written out from R61 and R62, and packed words of spec/95_test_vectors.md sections 2.6 and 3, decode to what they stand
for. -/
def Obligations.SpecWordsDecodeAsWritten : Prop :=
  decode 0x00000000000000000190191000000000#128 = .ok (.decodeInternal 0x01901910#32) ∧
  decode 0x000000000000000001900000FFFFF8F9#128 = .ok (.decodeTc 0x01900000#32) ∧
  decode 0x00000000000000000191000100000002#128 = .ok (.classify 0x01910001#32) ∧
  decode 0x00000000000000000190000000000503#128 = .ok (.correct 0x01900000#32 5#3) ∧
  decode 0x40240000000000000190000000000504#128 = .ok (.filter 0x4024000000000000#64) ∧
  decode 0x00000000000000000190000000000005#128 = .error (.reservedOp 5#3)

/-- R65: every word selects exactly one row of R62 by `op` alone, and a reserved op raises IllegalOperation. -/
def Obligations.DecodingIsTotalByOpAlone : Prop :=
  (∀ w : RequestWord, decode w = decodeRequest (Request.ofWord w)) ∧
  (∀ r : Request,
    (r.op = 0b000#3 → decodeRequest r = .ok (.decodeInternal r.frame)) ∧
    (r.op = 0b001#3 → decodeRequest r = .ok (.decodeTc r.frame)) ∧
    (r.op = 0b010#3 → decodeRequest r = .ok (.classify r.frame)) ∧
    (r.op = 0b011#3 → decodeRequest r = .ok (.correct r.frame r.tcType)) ∧
    (r.op = 0b100#3 → decodeRequest r = .ok (.filter r.x)) ∧
    (r.op = 0b101#3 ∨ r.op = 0b110#3 ∨ r.op = 0b111#3 → decodeRequest r = .error (.reservedOp r.op))) ∧
  (∀ (w : RequestWord) (s : State), (∀ i, decode w ≠ .ok i) → serveRequest w s = raise .illegalOperation s)

/-- R61: where each field stands in the packed word; the word and the record are equivalent; reserved bits are written as zero and
ignored. -/
def Obligations.PackedWordCarriesTheRecord : Prop :=
  (∀ w : RequestWord,
    (∀ i < 3, (Request.ofWord w).op.getLsbD i = w.getLsbD i) ∧
    (∀ i < 3, (Request.ofWord w).tcType.getLsbD i = w.getLsbD (8 + i)) ∧
    (∀ i < 32, (Request.ofWord w).frame.getLsbD i = w.getLsbD (32 + i)) ∧
    (∀ i < 64, (Request.ofWord w).x.getLsbD i = w.getLsbD (64 + i))) ∧
  (∀ i < 128, Request.reservedMask.getLsbD i = (decide (3 ≤ i ∧ i ≤ 7) || decide (11 ≤ i ∧ i ≤ 31))) ∧
  (∀ r : Request, Request.ofWord r.toWord = r ∧ r.toWord &&& Request.reservedMask = 0) ∧
  (∀ w : RequestWord, (Request.ofWord w).toWord = w &&& ~~~Request.reservedMask) ∧
  (∀ (w : RequestWord) (s : State), serveRequest w s = serveRequest (w &&& ~~~Request.reservedMask) s)

/-- R64: a field an operation does not read may hold any value; the response and the state after are the same. -/
def Obligations.UnreadFieldsDoNotMatter : Prop :=
  ∀ (r r' : Request) (s : State), r.op = r'.op →
    ((r.op = 0b000#3 ∨ r.op = 0b001#3 ∨ r.op = 0b010#3) → r.frame = r'.frame →
      serveRequest r.toWord s = serveRequest r'.toWord s) ∧
    (r.op = 0b011#3 → r.frame = r'.frame → r.tcType = r'.tcType → serveRequest r.toWord s = serveRequest r'.toWord s) ∧
    (r.op = 0b100#3 → r.x = r'.x → serveRequest r.toWord s = serveRequest r'.toWord s)

/-- R75: status stands in bits 65:64 of the response word and result in bits 63:0. -/
def Obligations.ResponseWordHasStatusAndResult : Prop :=
  ∀ r : Response, (rspWord r).extractLsb' 64 2 = statusCode (rspStatus r) ∧ (rspWord r).extractLsb' 0 64 = rspResult r

/-! ### frame_decoder -/

/-- R101: DECODE_INTERNAL answers `fmul(f64(cj_code), 0.0625)` for every frame and writes nothing else; the rule's corner values and
its example. It holds whatever the NaN bits given to `pack`, since the value is never NaN. -/
def Obligations.DecodeInternalAnswersColdJunction : Prop :=
  (∀ w : RequestWord, w.extractLsb' 0 3 = 0b000#3 → decode w = .ok (.decodeInternal (w.extractLsb' 32 32))) ∧
  (∀ (frame : Frame) (s : State) (nanBits : BitVec 52),
    let m := frame.extractLsb' 4 12
    let cj : Int := if m.getLsbD 11 = true then (m.toNat : Int) - 4096 else m.toNat
    exec (.decodeInternal frame) s = .next (s.withRsp (some (.ok (pack nanBits (fmul (f64 cj) (literal false 625 10000))))))) ∧
  (∀ (frame : Frame) (s : State),
    (frame.extractLsb' 4 12 = 0x000#12 → exec (.decodeInternal frame) s = .next (s.withRsp (some (.ok 0x0000000000000000#64)))) ∧
    (frame.extractLsb' 4 12 = 0x7FF#12 → exec (.decodeInternal frame) s = .next (s.withRsp (some (.ok 0x405FFC0000000000#64)))) ∧
    (frame.extractLsb' 4 12 = 0x800#12 → exec (.decodeInternal frame) s = .next (s.withRsp (some (.ok 0xC060000000000000#64)))) ∧
    (frame.extractLsb' 4 12 = 0xFFF#12 → exec (.decodeInternal frame) s = .next (s.withRsp (some (.ok 0xBFB0000000000000#64)))) ∧
    (frame = 0x00000190#32 → exec (.decodeInternal frame) s = .next (s.withRsp (some (.ok 0x3FF9000000000000#64)))))

/-- R102: DECODE_TC answers `fmul(f64(tc_code), 0.25)` for every frame and writes nothing else; the rule's corner values and its
example. -/
def Obligations.DecodeTcAnswersThermocouple : Prop :=
  (∀ w : RequestWord, w.extractLsb' 0 3 = 0b001#3 → decode w = .ok (.decodeTc (w.extractLsb' 32 32))) ∧
  (∀ (frame : Frame) (s : State) (nanBits : BitVec 52),
    let m := frame.extractLsb' 18 14
    let tc : Int := if m.getLsbD 13 = true then (m.toNat : Int) - 16384 else m.toNat
    exec (.decodeTc frame) s = .next (s.withRsp (some (.ok (pack nanBits (fmul (f64 tc) (literal false 25 100))))))) ∧
  (∀ (frame : Frame) (s : State),
    (frame.extractLsb' 18 14 = 0x0000#14 → exec (.decodeTc frame) s = .next (s.withRsp (some (.ok 0x0000000000000000#64)))) ∧
    (frame.extractLsb' 18 14 = 0x1FFF#14 → exec (.decodeTc frame) s = .next (s.withRsp (some (.ok 0x409FFF0000000000#64)))) ∧
    (frame.extractLsb' 18 14 = 0x2000#14 → exec (.decodeTc frame) s = .next (s.withRsp (some (.ok 0xC0A0000000000000#64)))) ∧
    (frame.extractLsb' 18 14 = 0x3FFF#14 → exec (.decodeTc frame) s = .next (s.withRsp (some (.ok 0xBFD0000000000000#64)))) ∧
    (frame = 0x01900000#32 → exec (.decodeTc frame) s = .next (s.withRsp (some (.ok 0x4039000000000000#64)))))

/-- R103: f64 of a code and both decodes are exact; a result is finite, not subnormal and not -0.0; the results are exactly the
codes -2048 to 2047 times 0.0625 and -8192 to 8191 times 0.25. -/
def Obligations.DecodesAreExact : Prop :=
  (∀ code : Int, code.natAbs ≤ 8192 → orderKey (f64 code) = some (code * oneUnits)) ∧
  (∀ (frame : Frame) (s : State), ∃ b, exec (.decodeInternal frame) s = .next (s.withRsp (some (.ok b))) ∧
    HasValue b (cjCode frame) 16 ∧ (b = posZero ∨ exponentField b ≠ 0) ∧ -2048 ≤ cjCode frame ∧ cjCode frame ≤ 2047) ∧
  (∀ (frame : Frame) (s : State), ∃ b, exec (.decodeTc frame) s = .next (s.withRsp (some (.ok b))) ∧
    HasValue b (tcCode frame) 4 ∧ (b = posZero ∨ exponentField b ≠ 0) ∧ -8192 ≤ tcCode frame ∧ tcCode frame ≤ 8191) ∧
  (∀ code : Int, -2048 ≤ code → code ≤ 2047 → ∃ frame, cjCode frame = code) ∧
  (∀ code : Int, -8192 ≤ code → code ≤ 8191 → ∃ frame, tcCode frame = code)

/-- R104: a frame whose field is enc_N(v) decodes to v times the field's weight. -/
def Obligations.EncodedCodesDecodeBack : Prop :=
  (∀ (v : Int) (frame : Frame) (s : State), -2048 ≤ v → v < 2048 → cjField frame = encField 12 v →
    sext (encField 12 v) = v ∧ ∃ b, exec (.decodeInternal frame) s = .next (s.withRsp (some (.ok b))) ∧ HasValue b v 16) ∧
  (∀ (v : Int) (frame : Frame) (s : State), -8192 ≤ v → v < 8192 → tcField frame = encField 14 v →
    sext (encField 14 v) = v ∧ ∃ b, exec (.decodeTc frame) s = .next (s.withRsp (some (.ok b))) ∧ HasValue b v 4)

/-- R105: a higher code decodes to a higher or equal temperature. -/
def Obligations.DecodesAreMonotone : Prop :=
  (∀ (f g : Frame) (s : State), sext (cjField f) ≤ sext (cjField g) →
    ∃ a b, exec (.decodeInternal f) s = .next (s.withRsp (some (.ok a))) ∧
      exec (.decodeInternal g) s = .next (s.withRsp (some (.ok b))) ∧ fge (unpack b) (unpack a) = true) ∧
  (∀ (f g : Frame) (s : State), sext (tcField f) ≤ sext (tcField g) →
    ∃ a b, exec (.decodeTc f) s = .next (s.withRsp (some (.ok a))) ∧
      exec (.decodeTc g) s = .next (s.withRsp (some (.ok b))) ∧ fge (unpack b) (unpack a) = true)

/-- R67 and R68: each code is the sign extension of its field, in range, and equals the source's procedure, "invert, add one,
negate" within the field width. -/
def Obligations.CodesMatchTheSourcesCorrection : Prop :=
  (∀ frame : Frame, let m := frame.extractLsb' 18 14;
    -8192 ≤ tcCode frame ∧ tcCode frame ≤ 8191 ∧
    (m.getLsbD 13 = false → tcCode frame = m.toNat) ∧
    (m.getLsbD 13 = true → tcCode frame = (m.toNat : Int) - 16384 ∧ tcCode frame = -(complement m + 1))) ∧
  (∀ frame : Frame, let m := frame.extractLsb' 4 12;
    -2048 ≤ cjCode frame ∧ cjCode frame ≤ 2047 ∧
    (m.getLsbD 11 = false → cjCode frame = m.toNat) ∧
    (m.getLsbD 11 = true → cjCode frame = (m.toNat : Int) - 4096 ∧ cjCode frame = -(complement m + 1)))

/-! ### fault_classifier -/

/-- R111 and R112: the truth table of CLASSIFY; nothing else is written. -/
def Obligations.ClassifyFollowsTheTruthTable : Prop :=
  (∀ w : RequestWord, w.extractLsb' 0 3 = 0b010#3 → decode w = .ok (.classify (w.extractLsb' 32 32))) ∧
  ∀ (frame : Frame) (s : State),
    (frame.getLsbD 16 = false → exec (.classify frame) s = .next (s.withRsp (some (.ok 0#64)))) ∧
    (frame.getLsbD 16 = true →
      (frame.extractLsb' 0 3 = 0b001#3 → exec (.classify frame) s = .next (s.withRsp (some (.ok 1#64)))) ∧
      (frame.extractLsb' 0 3 = 0b010#3 → exec (.classify frame) s = .next (s.withRsp (some (.ok 2#64)))) ∧
      (frame.extractLsb' 0 3 = 0b011#3 → exec (.classify frame) s = .next (s.withRsp (some (.ok 3#64)))) ∧
      (frame.extractLsb' 0 3 = 0b000#3 ∨ frame.extractLsb' 0 3 = 0b100#3 ∨ frame.extractLsb' 0 3 = 0b101#3 ∨
          frame.extractLsb' 0 3 = 0b110#3 ∨ frame.extractLsb' 0 3 = 0b111#3 →
        exec (.classify frame) s = .next (s.withRsp (some (.ok 4#64)))))

/-- R113: only None means no fault; Unspecified means a fault. -/
def Obligations.OnlyNoneMeansNoFault : Prop :=
  ∀ (frame : Frame) (s : State), ∃ b, exec (.classify frame) s = .next (s.withRsp (some (.ok b))) ∧
    (b = zext64 (kindCode .none) ↔ frame.getLsbD 16 = false) ∧
    (b = zext64 (kindCode .unspecified) → frame.getLsbD 16 = true)

/-- R70, R110 and R132: each operation reads only its own frame bits. Bits 17 and 3 are read by no operation, and the decodes and
CORRECT do not look at the fault bits. -/
def Obligations.OperationsReadOnlyTheirFrameBits : Prop :=
  ∀ (f g : Frame) (s : State),
    ((∀ i, 18 ≤ i → f.getLsbD i = g.getLsbD i) →
      exec (.decodeTc f) s = exec (.decodeTc g) s ∧ ∀ t, exec (.correct f t) s = exec (.correct g t) s) ∧
    ((∀ i, 4 ≤ i → i ≤ 15 → f.getLsbD i = g.getLsbD i) → exec (.decodeInternal f) s = exec (.decodeInternal g) s) ∧
    (f.getLsbD 16 = g.getLsbD 16 → (∀ i, i ≤ 2 → f.getLsbD i = g.getLsbD i) →
      exec (.classify f) s = exec (.classify g) s)

/-! ### polynomial_linearizer_with_lut -/

/-- R127: with the type's scale and table, CORRECT answers status OK and the inverse rational polynomial of the selected region,
each line one rounded operation in the rule's order; a NaN result is a quiet NaN of any payload; nothing else is written. -/
def Obligations.CorrectAnswersThePolynomial : Prop :=
  ∀ (frame : Frame) (t : TcCode) (s : State) (scale : F64) (table : Table), storeEntry s.store t = some (scale, table) →
    let v := fmul (fmul (f64 (tcCode frame)) (literal false 25 100)) (unpack scale)
    ∃ r b, (records table)[select table v]? = some r ∧
      exec (.correct frame t) s = .next (s.withRsp (some (.ok b))) ∧ QuietIfNan b ∧
      (let dV := fsub v (unpack r.Vo)
       let n := fadd (unpack r.p3) (fmul dV (unpack r.p4))
       let n := fadd (unpack r.p2) (fmul dV n)
       let n := fadd (unpack r.p1) (fmul dV n)
       let num := fmul dV n
       let d := fadd (unpack r.q2) (fmul dV (unpack r.q3))
       let d := fadd (unpack r.q1) (fmul dV d)
       let den := fadd (literal false 1 1) (fmul dV d)
       unpack b = fadd (unpack r.To) (fdiv num den))

/-- R72: which codes have a scale and a table: K always, T if its table is configured, no other; CORRECT with a code whose
table is absent raises UnsupportedThermocoupleType. -/
def Obligations.TypeCodesSelectTheStore : Prop :=
  ∀ st : Store, storeEntry st 0b000#3 = some (scaleK, st.coeffK) ∧
    (∀ table, st.coeffT = some table → storeEntry st 0b001#3 = some (st.scaleT, table)) ∧
    (st.coeffT = none → storeEntry st 0b001#3 = none) ∧
    (∀ t : TcCode, t ≠ 0b000#3 → t ≠ 0b001#3 → storeEntry st t = none) ∧
    (∀ (t : TcCode) (frame : Frame) (s : State), s.store = st → storeEntry st t = none →
      exec (.correct frame t) s = .next (s.withRsp (some (.error .unsupportedThermocoupleType))))

/-- R163: CORRECT with a type whose table is absent raises UnsupportedThermocoupleType and writes nothing; no other operation
raises it. -/
def Obligations.OnlyCorrectRaisesUnsupportedType : Prop :=
  (∀ (frame : Frame) (t : TcCode) (s : State), (2 ≤ t.toNat ∨ (t.toNat = 1 ∧ s.store.coeffT = none)) →
    exec (.correct frame t) s = .next (s.withRsp (some (.error .unsupportedThermocoupleType)))) ∧
  (∀ (w : RequestWord) (s u : State), serveRequest w s = .next u → u.rsp = some (.error .unsupportedThermocoupleType) →
    ∃ frame t, decode w = .ok (.correct frame t) ∧ (2 ≤ t.toNat ∨ (t.toNat = 1 ∧ s.store.coeffT = none)))

/-- R124: what a well-formed table is; a well-formed COEFF(K) holds the region [-3.554, 4.096) and has at least three regions; a
build with a table that is not well-formed is refused. -/
def Obligations.WellFormedTablesAreOrdered : Prop :=
  (∀ t : Table, tableWellFormed t = true ↔
    (∀ b ∈ boundaries t, isFinite b = true) ∧
    (boundaries t).Pairwise (fun a b => flt (unpack a) (unpack b) = true) ∧
    (∀ c ∈ records t, ∀ b ∈ [c.To, c.Vo, c.p1, c.p2, c.p3, c.p4, c.q1, c.q2, c.q3], isFinite b = true)) ∧
  (∀ t : Table, tableKWellFormed t = true ↔ tableWellFormed t = true ∧
    ∃ i, (boundaries t)[i]? = some 0xC00C6E978D4FDF3B#64 ∧ (boundaries t)[i + 1]? = some 0x4010624DD2F1A9FC#64) ∧
  (∀ t : Table, tableKWellFormed t = true → 3 ≤ nreg t) ∧
  (∀ (p : Params) (t : Table), (p.coeffK = some t ∧ tableKWellFormed t = false) ∨ (p.coeffT = some t ∧ tableWellFormed t = false) →
    ∃ e, build p = .error e)

/-- R125: selection counts the boundaries at or below v; a v on a boundary selects the region above it; a v below every boundary
selects region 0, and one at or above the last boundary the last region. -/
def Obligations.SelectionCountsBoundaries : Prop :=
  ∀ t : Table, tableWellFormed t = true →
    (∀ v, select t v = (boundaries t).countP (fun b => fge v (unpack b))) ∧
    (∀ j b, (boundaries t)[j]? = some b → select t (unpack b) = j + 1) ∧
    (∀ v, (∀ b ∈ boundaries t, fge v (unpack b) = false) → select t v = 0) ∧
    (∀ v, (∀ b ∈ boundaries t, fge v (unpack b) = true) → select t v + 1 = nreg t)

/-- R126: selection is total and unique, and the voltage of a reading is never NaN. -/
def Obligations.SelectionIsTotalAndUnique : Prop :=
  (∀ (t : Table) (v : Fp), tableWellFormed t = true → v ≠ .nan →
    select t v < nreg t ∧ ∀ i < nreg t, (Covers t i v ↔ i = select t v)) ∧
  (∀ (frame : Frame) (scale : F64), isFinite scale = true → voltage frame scale ≠ .nan)

/-- R128: no clamping. A voltage below every boundary takes region 0's coefficients, one at or above every boundary the last
region's; the answer has status OK. -/
def Obligations.OutOfRangeVoltagesAreExtrapolated : Prop :=
  ∀ (frame : Frame) (t : TcCode) (s : State) (scale : F64) (table : Table), storeEntry s.store t = some (scale, table) →
    ((∀ b ∈ boundaries table, fge (voltage frame scale) (unpack b) = false) →
      ∃ b, exec (.correct frame t) s = .next (s.withRsp (some (.ok b))) ∧
        unpack b = poly table.first (voltage frame scale)) ∧
    ((∀ b ∈ boundaries table, fge (voltage frame scale) (unpack b) = true) →
      ∃ b r, (records table).getLast? = some r ∧ exec (.correct frame t) s = .next (s.withRsp (some (.ok b))) ∧
        unpack b = poly r (voltage frame scale))

/-- R133: for type K a field of code 100 decodes to 25.0 °C, has the voltage nearest 1.0319 mV, falls in the region
[-3.554, 4.096) of any legal table, and answers that region's formula. -/
def Obligations.TypeKExampleUsesTheSourceRegion : Prop :=
  ∀ (frame : Frame) (s : State), tableKWellFormed s.store.coeffK = true → tcCode frame = 100 →
    pack 0 (approxCelsius frame) = 0x4039000000000000#64 ∧ pack 0 (voltage frame scaleK) = 0x3FF082A9930BE0DF#64 ∧
    ∃ i r b, (boundaries s.store.coeffK)[i]? = some 0xC00C6E978D4FDF3B#64 ∧
      (boundaries s.store.coeffK)[i + 1]? = some 0x4010624DD2F1A9FC#64 ∧ (records s.store.coeffK)[i + 1]? = some r ∧
      exec (.correct frame 0b000#3) s = .next (s.withRsp (some (.ok b))) ∧ unpack b = poly r (voltage frame scaleK)

/-- Type K only (R122's clause; for another scale the product can overflow or underflow, log entry 6): the voltage is finite, +0.0
at code 0, negative below it. -/
def Obligations.TypeKVoltageIsFiniteWithSign : Prop :=
  ∀ frame : Frame, ∃ neg m k, voltage frame scaleK = .fin neg m k ∧ (tcCode frame = 0 → neg = false ∧ m = 0) ∧
    (tcCode frame < 0 → neg = true ∧ m ≠ 0) ∧ (0 < tcCode frame → neg = false ∧ m ≠ 0)

/-- spec/90_conflicts.md C3: no code has a type-K voltage equal to -3.554 or 4.096, so the two readings of the source's interval
never differ for type K. -/
def Obligations.NoTypeKVoltageIsOnASourceBoundary : Prop :=
  ∀ frame : Frame, orderKey (voltage frame scaleK) ≠ orderKey (unpack 0xC00C6E978D4FDF3B#64) ∧
    orderKey (voltage frame scaleK) ≠ orderKey (unpack 0x4010624DD2F1A9FC#64)

/-- R129, at a pole: a zero denominator gives an infinite result for a numerator that is not zero, NaN for a zero one, and the
answer has status OK. -/
def Obligations.PolesGiveInfinityOrNan : Prop :=
  ∀ (frame : Frame) (t : TcCode) (s : State) (scale : F64) (table : Table) (neg : Bool) (k : Nat),
    storeEntry s.store t = some (scale, table) → isFinite (lutSelected table (voltage frame scale)).To = true →
    let v := voltage frame scale
    let r := lutSelected table v
    let dV := fsub v (unpack r.Vo)
    let num := fmul dV (fadd (unpack r.p1) (fmul dV (fadd (unpack r.p2) (fmul dV
      (fadd (unpack r.p3) (fmul dV (unpack r.p4)))))))
    let den := fadd one (fmul dV (fadd (unpack r.q1) (fmul dV (fadd (unpack r.q2) (fmul dV (unpack r.q3))))))
    den = .fin neg 0 k →
    ∃ b, exec (.correct frame t) s = .next (s.withRsp (some (.ok b))) ∧
      ((∃ n j, num = .fin n 0 j) → isNan b = true) ∧
      (num ≠ .nan → (∀ n j, num ≠ .fin n 0 j) → ∃ n, unpack b = .inf n)

/-! ### exponential_smoother_iir -/

/-- R141: FILTER answers `alpha * prev + (1 - alpha) * x`, two rounded products and a rounded sum, for every x, and `prev` takes the
value answered; nothing else is written. A non-finite x makes prev non-finite. The rule's rounding corner and its example. -/
def Obligations.FilterAnswersAndStoresTheAverage : Prop :=
  (∀ w : RequestWord, w.extractLsb' 0 3 = 0b100#3 → decode w = .ok (.filter (w.extractLsb' 64 64))) ∧
  (∀ (x : F64) (s : State), isFinite x = false →
    ∃ out, exec (.filter x) s = .next ((s.withPrev out).withRsp (some (.ok out))) ∧ isFinite out = false) ∧
  (∀ (x : F64) (s : State), ∃ out,
    exec (.filter x) s = .next ((s.withPrev out).withRsp (some (.ok out))) ∧ QuietIfNan out ∧
    unpack out = fadd (fmul (unpack s.alpha) (unpack s.prev)) (fmul (fsub (literal false 1 1) (unpack s.alpha)) (unpack x))) ∧
  (∀ s : State, s.alpha = 0x3FD3333333333333#64 → s.prev = 0x4008000000000000#64 →
    exec (.filter 0x4008000000000000#64) s =
      .next ((s.withPrev 0x4007FFFFFFFFFFFF#64).withRsp (some (.ok 0x4007FFFFFFFFFFFF#64)))) ∧
  (∀ s : State, s.alpha = 0x3FE0000000000000#64 → s.prev = posZero →
    exec (.filter 0x4024000000000000#64) s =
      .next ((s.withPrev 0x4014000000000000#64).withRsp (some (.ok 0x4014000000000000#64))))

/-- R142: 1 - alpha is exact for 0.5 ≤ alpha ≤ 1 and rounds for 0.1; with alpha = 0.0 the answer is x for every finite x but -0.0,
whose sign depends on prev, and NaN when prev is not finite. -/
def Obligations.FilterWeightsAndAlphaZero : Prop :=
  (∀ (alpha : F64) (z : Int), orderKey (unpack alpha) = some z → (oneUnits : Int) ≤ 2 * z → z ≤ oneUnits →
    orderKey (fsub one (unpack alpha)) = some (oneUnits - z)) ∧
  unpack 0x3FECCCCCCCCCCCCD#64 = fsub one (unpack 0x3FB999999999999A#64) ∧ unpack 0x3FECCCCCCCCCCCCD#64 = literal false 9 10 ∧
  (∀ z, orderKey (unpack 0x3FB999999999999A#64) = some z →
    orderKey (fsub one (unpack 0x3FB999999999999A#64)) ≠ some (oneUnits - z)) ∧
  fsub one (unpack posZero) = one ∧
  (∀ (x : F64) (s : State), s.alpha = posZero → isFinite s.prev = true → isFinite x = true → x ≠ 0x8000000000000000#64 →
    exec (.filter x) s = .next ((s.withPrev x).withRsp (some (.ok x)))) ∧
  (∀ s : State, s.alpha = posZero → isFinite s.prev = true →
    let out := if signBit s.prev = true then 0x8000000000000000#64 else posZero
    exec (.filter 0x8000000000000000#64) s = .next ((s.withPrev out).withRsp (some (.ok out)))) ∧
  (∀ (x : F64) (s : State), s.alpha = posZero → isFinite s.prev = false →
    ∃ out, exec (.filter x) s = .next ((s.withPrev out).withRsp (some (.ok out))) ∧ isNan out = true)

/-- R143 as the model reads it: alpha = 1.0 is legal; then a finite x leaves the value of prev as it is. For a prev of -0.0 the
statement says equality of numbers only, since the sign of that zero can change: that reading of R143's "out equals prev" is the
model's own (DEDUCED, log entry 7). From +0.0 every finite input answers +0.0 for ever, and an infinite or NaN x gives NaN. -/
def Obligations.AlphaOneHoldsPrev : Prop :=
  alphaLegal 0x3FF0000000000000#64 = true ∧
  unpack posZero = fsub one (unpack 0x3FF0000000000000#64) ∧
  (∀ (x : F64) (s : State), s.alpha = 0x3FF0000000000000#64 → isFinite x = true → isNan s.prev = false →
    ∃ out, exec (.filter x) s = .next ((s.withPrev out).withRsp (some (.ok out))) ∧
      orderKey (unpack out) = orderKey (unpack s.prev) ∧ (s.prev ≠ 0x8000000000000000#64 → out = s.prev)) ∧
  (∀ xs : List F64, (∀ x ∈ xs, isFinite x = true) → history 0x3FF0000000000000#64 posZero xs = posZero) ∧
  (∀ (x : F64) (s : State), s.alpha = 0x3FF0000000000000#64 → isFinite x = false →
    ∃ out, exec (.filter x) s = .next ((s.withPrev out).withRsp (some (.ok out))) ∧ isNan out = true)

/-- R193 (and the NaN clauses of R144): a NaN x, or two opposite infinities one after the other, leave prev NaN; it stays NaN, and
every FILTER answers NaN, over any events without a reset; a reset recovers. -/
def Obligations.NanPersistsUntilReset : Prop :=
  (∀ (x : F64) (s t : State), isNan x = true → exec (.filter x) s = .next t → isNan t.prev = true) ∧
  (∀ (s t u : State) (neg : Bool), alphaLegal s.alpha = true → exec (.filter (packFields neg 2047 0)) s = .next t →
    exec (.filter (packFields (!neg) 2047 0)) t = .next u → isNan u.prev = true) ∧
  (∀ (s : State) (es : List HostEvent), isNan s.prev = true → (∀ e ∈ es, HostEvent.isReset e = false) →
    isNan (serveAll s es).1.prev = true ∧
    ∀ w x, decode w = .ok (.filter x) →
      ∃ b, serve (.request w) (serveAll s es).1 = .next (((serveAll s es).1.withPrev b).withRsp (some (.ok b))) ∧ isNan b = true) ∧
  (∀ (s t : State) (e : HostEvent), HostEvent.isReset e = true → serve e s = .next t → t.prev = posZero)

/-- R145, and more: the equalities are of words. Where a y_n is NaN, that its word is a function of the operands is the model's
choice (DESIGN CHOICE, log entry 2), which the spec leaves open (U11). After a reset, and over any events without another, prev
is y_n for the operands x_1 … x_n of the FILTER requests among them, and the n-th FILTER answers y_n; requests of other
operations do not count. -/
def Obligations.FilterHistoryAfterReset : Prop :=
  (∀ (s : State) (before after : List HostEvent), (∀ e ∈ after, HostEvent.isReset e = false) →
    (serveAll s (before ++ .reset :: after)).1.prev = history s.alpha posZero (after.filterMap filterOperand)) ∧
  (∀ (s : State) (before after : List HostEvent) (w : RequestWord) (x : F64), (∀ e ∈ after, HostEvent.isReset e = false) →
    decode w = .ok (.filter x) →
    (serveAll s (before ++ .reset :: (after ++ [.request w]))).2.getLast? =
      some (.ok (history s.alpha posZero (after.filterMap filterOperand ++ [x])))) ∧
  (∀ (alpha y x : F64) (xs : List F64), history alpha y [] = y ∧
    unpack (history alpha y (xs ++ [x])) =
      fadd (fmul (unpack alpha) (unpack (history alpha y xs))) (fmul (fsub one (unpack alpha)) (unpack x)))

/-- R147: with alpha 0.5 from reset the inputs 10.0, 20.0, 20.0 answer 5.0, 12.5, 16.25. -/
def Obligations.SourceSmootherExample : Prop :=
  ∀ s : State, s.alpha = 0x3FE0000000000000#64 → s.prev = posZero →
    (serveAll s [.request 0x40240000000000000000000000000004#128, .request 0x40340000000000000000000000000004#128,
      .request 0x40340000000000000000000000000004#128]).2 =
      [.ok 0x4014000000000000#64, .ok 0x4029000000000000#64, .ok 0x4030400000000000#64]

/-! ### Errors -/

/-- R63 and R162: an op of 101, 110 or 111 is answered with IllegalOperation (10) and a zero result, and changes no state, whatever
the other fields hold. -/
def Obligations.ReservedOpsAnswerIllegalOperation : Prop :=
  ∀ (w : RequestWord) (s : State), (w.extractLsb' 0 3 = 0b101#3 ∨ w.extractLsb' 0 3 = 0b110#3 ∨ w.extractLsb' 0 3 = 0b111#3) →
    serveRequest w s = .next (s.withRsp (some (.error .illegalOperation))) ∧
    rspWord (.error .illegalOperation) = 0b10#2 ++ 0#64

/-- R161: a request that raises an error responds with the error's status and a zero result, and the state after it is the state
before it. -/
def Obligations.ErrorsArePrecise : Prop :=
  ∀ (w : RequestWord) (s t : State) (e : RunError), serveRequest w s = .next t → t.rsp = some (.error e) →
    t = s.withRsp (some (.error e)) ∧ rspStatus (.error e) = errorStatus e ∧ rspResult (.error e) = 0x0000000000000000#64 ∧
    t.prev = s.prev ∧ t.alpha = s.alpha ∧ t.store = s.store ∧ t.inputs = s.inputs

/-- R166: an error is fatal to its one request only: the next request is served exactly as if the failed one had not been issued. -/
def Obligations.ErrorsDoNotTouchTheNextRequest : Prop :=
  ∀ (w w' : RequestWord) (s t : State) (e : RunError), serveRequest w s = .next t → t.rsp = some (.error e) →
    serveRequest w' t = serveRequest w' s

/-- R165: exactly which request answers which status, and the code of each; InvalidFilterParameter is never a response, and is the
refusal of a build whose ALPHA fails its check. -/
def Obligations.StatusOfEveryRequest : Prop :=
  (∀ (w : RequestWord) (s : State), ∃ t r, serveRequest w s = .next t ∧ t.rsp = some r ∧
    (rspStatus r = .illegalOperation ↔ 5 ≤ (w.extractLsb' 0 3).toNat) ∧
    (rspStatus r = .unsupportedThermocoupleType ↔
      w.extractLsb' 0 3 = 0b011#3 ∧ storeEntry s.store (w.extractLsb' 8 3) = none) ∧
    rspStatus r ≠ .invalidFilterParameter ∧
    (rspStatus r ≠ .ok → t = s.withRsp (some r))) ∧
  (∀ p : Params, alphaLegal p.alpha = false → build p = .error .invalidFilterParameter) ∧
  buildErrorStatus .invalidFilterParameter = some .invalidFilterParameter ∧
  statusCode .ok = 0b00#2 ∧ statusCode .unsupportedThermocoupleType = 0b01#2 ∧ statusCode .illegalOperation = 0b10#2 ∧
  statusCode .invalidFilterParameter = 0b11#2

/-! ### Building an instance, and reset -/

/-- R140: an instance is built only if 0 ≤ ALPHA ≤ 1; any other ALPHA, NaN included, refuses the build; ALPHA is not clamped. -/
def Obligations.AlphaIsCheckedNotClamped : Prop :=
  (∀ alpha : F64, alphaLegal alpha = true ↔ ∃ z, orderKey (unpack alpha) = some z ∧ 0 ≤ z ∧ z ≤ oneUnits) ∧
  (∀ p : Params, alphaLegal p.alpha = false ↔ build p = .error .invalidFilterParameter) ∧
  (∀ (p : Params) (s : State), build p = .ok s → alphaLegal p.alpha = true ∧ s.alpha = p.alpha) ∧
  alphaLegal 0x0000000000000000#64 = true ∧ alphaLegal 0x3FF0000000000000#64 = true ∧
  ∀ alpha : F64, isNan alpha = true → alphaLegal alpha = false

/-- R185: the checks of a build, in order. What passes them is an instance in the reset state, and its settings
are the host's. Without COEFF(T) the rule asks nothing of SCALE(T): BuiltSettingsAreLegal says what happens there. -/
def Obligations.BuildChecksInOrder : Prop :=
  ∀ p : Params,
    (alphaLegal p.alpha = false → build p = .error .invalidFilterParameter) ∧
    (alphaLegal p.alpha = true →
      (p.coeffK = none → build p = .error .coeffKAbsent) ∧
      ∀ k, p.coeffK = some k →
        (tableKWellFormed k = false → build p = .error .coeffKIllFormed) ∧
        (tableKWellFormed k = true →
          (p.coeffT = none → isFinite p.scaleT = true → build p = .ok (State.powerOn ⟨p.alpha, ⟨p.scaleT, k, none⟩⟩)) ∧
          ∀ t, p.coeffT = some t →
            (isFinite p.scaleT = false → build p = .error .scaleTNotFinite) ∧
            (isFinite p.scaleT = true → tableWellFormed t = false → build p = .error .coeffTIllFormed) ∧
            (isFinite p.scaleT = true → tableWellFormed t = true →
              build p = .ok (State.powerOn ⟨p.alpha, ⟨p.scaleT, k, some t⟩⟩))))

/-- The legal values of the configuration (spec/10_state.md section 3): a build succeeds exactly if every parameter has a legal
value, and the instance then holds those values; the reset state's are legal. That a SCALE(T) that is not finite refuses the build
where COEFF(T) is absent too is the model's reading of R30 beside R185 (DEDUCED, log entry 9). -/
def Obligations.BuiltSettingsAreLegal : Prop :=
  (∀ (p : Params) (s : State), build p = .ok s ↔
    alphaLegal p.alpha = true ∧ isFinite p.scaleT = true ∧ (∀ t, p.coeffT = some t → tableWellFormed t = true) ∧
    ∃ k, p.coeffK = some k ∧ tableKWellFormed k = true ∧ s = State.powerOn ⟨p.alpha, ⟨p.scaleT, k, p.coeffT⟩⟩) ∧
  (∀ (p : Params) (k : Table), alphaLegal p.alpha = true → p.coeffK = some k → tableKWellFormed k = true →
    isFinite p.scaleT = false → build p = .error .scaleTNotFinite) ∧
  isFinite State.reset.store.scaleT = true

/-- A built instance meets the invariant and serves a request at once; resetting it at any later time gives the state it was built
in (R181), its response port empty again (the model's choice, log entry 5). -/
def Obligations.BuildLeavesTheResetState : Prop :=
  ∀ (p : Params) (s : State) (es : List HostEvent) (e : HostEvent), build p = .ok s → HostEvent.isReset e = true →
    s.Inv ∧ (∀ w, ∃ t r, serveRequest w s = .next t ∧ t.rsp = some r) ∧ serve e (serveAll s es).1 = .next s

/-- R183: the state after reset. The settings are as built, and they are legal. -/
def Obligations.ResetStateAsGiven : Prop :=
  State.reset.prev = 0x0000000000000000#64 ∧ State.reset.alpha = Config.built.settings.alpha ∧
    State.reset.store = Config.built.settings.store ∧ State.reset.Legal

/-- R180: a reset writes +0.0 to prev and nothing else of the instance, and produces no response (the response port
is empty after it, log entry 5). -/
def Obligations.ResetClearsOnlyPrev : Prop :=
  ∀ (s : State) (rest : List HostEvent), s.inputs = .reset :: rest →
    ∃ t, step s = .next t ∧ t.prev = 0x0000000000000000#64 ∧ t.alpha = s.alpha ∧ t.store = s.store ∧ t.rsp = none ∧
      t.inputs = rest

/-- R182: a reset takes effect between requests, after every request answered before it and before every later one; a request it
cuts off has no effect. -/
def Obligations.ResetsFallBetweenRequests : Prop :=
  ∀ (s : State) (before after : List HostEvent) (w : RequestWord),
    serveAll s (before ++ .requestCutByReset w :: after) = serveAll s (before ++ .reset :: after) ∧
    ∃ t, serve .reset (serveAll s before).1 = .next t ∧
      serveAll s (before ++ .reset :: after) = ((serveAll t after).1, (serveAll s before).2 ++ (serveAll t after).2)

/-! ### The whole machine -/

/-- A step whose next event is a request that decodes to an operation runs it on the state with that event taken off, and
withFetchWord makes any word the next request. -/
def Obligations.StepRunsTheDecodedInstruction : Prop :=
  (∀ (s : State) (w : RequestWord) (rest : List HostEvent) (i : Instr), s.inputs = .request w :: rest → decode w = .ok i →
    step s = exec i (s.withInputs rest)) ∧
  (∀ (s : State) (nbits w : Nat) (i : Instr), decodeTableWord nbits w = some i → step (s.withFetchWord nbits w) = exec i s)

/-- R48: requests take effect one at a time in the order issued: running the machine over its pending events is serving them in
order, each on the state the earlier ones left; of the instance's state only prev can change. -/
def Obligations.RunServesEventsInOrder : Prop :=
  ∀ (s : State) (es : List HostEvent), s.inputs = es →
    Host.Core.run Sys2Proof.core es.length s = .next ((serveAll s es).1.withInputs []) ∧ SameSettings s (serveAll s es).1

/-- R44: the tables and the scales are set when the instance is built, and no step changes them, nor alpha. -/
def Obligations.SettingsAreReadOnly : Prop :=
  (∀ (p : Params) (s : State), build p = .ok s →
    s.store.scaleT = p.scaleT ∧ p.coeffK = some s.store.coeffK ∧ s.store.coeffT = p.coeffT) ∧
  ∀ s t : State, step s = .next t → SameSettings s t

/-- R25: prev is written by FILTER, with its output, and by reset, with +0.0, and by nothing else; no operation but FILTER reads
it. -/
def Obligations.OnlyFilterUsesPrev : Prop :=
  (∀ (i : Instr) (s t : State), (∀ x, i ≠ .filter x) → exec i s = .next t → t.prev = s.prev) ∧
  (∀ (i : Instr) (s : State) (v : F64), (∀ x, i ≠ .filter x) →
    ∃ r, exec i s = .next (s.withRsp (some r)) ∧ exec i (s.withPrev v) = .next ((s.withPrev v).withRsp (some r))) ∧
  (∀ (x : F64) (s : State), ∃ out, exec (.filter x) s = .next ((s.withPrev out).withRsp (some (.ok out)))) ∧
  (∀ s t : State, step s = .next t → t.prev ≠ s.prev →
    (∃ w x rest, s.inputs = .request w :: rest ∧ decode w = .ok (.filter x) ∧ t.rsp = some (.ok t.prev)) ∨
    (∃ e rest, s.inputs = e :: rest ∧ HostEvent.isReset e = true ∧ t.prev = posZero))

/-- The frame of every operation: it answers a next state in which alpha, the store and the host's other events are as before, a
response is given, and prev is as before unless the operation is FILTER (spec/10_state.md section 4). -/
def Obligations.OperationsChangeOnlyPrevAndResponse : Prop :=
  ∀ (i : Instr) (s : State), ∃ t r, exec i s = .next t ∧ t.rsp = some r ∧ t.alpha = s.alpha ∧ t.store = s.store ∧
    t.inputs = s.inputs ∧ ((∀ x, i ≠ .filter x) → t.prev = s.prev)

/-- R46's last sentence: every operation except FILTER is idempotent: repeated, it gives the same response and changes nothing. -/
def Obligations.RequestsButFilterAreIdempotent : Prop :=
  ∀ (i : Instr) (s : State), (∀ x, i ≠ .filter x) →
    ∃ r, exec i s = .next (s.withRsp (some r)) ∧ exec i (s.withRsp (some r)) = .next (s.withRsp (some r))

/-- The block never stops: every step of every state answers a next state (R19: no halt state; R195: every request completes in one
step). -/
def Obligations.EveryStepCompletes : Prop := ∀ s : State, ∃ t, step s = .next t

/-- Over any events the invariant is kept, and every request that no reset cuts off has exactly one response (R19). -/
def Obligations.EveryRequestHasItsResponse : Prop :=
  ∀ (s : State) (es : List HostEvent), s.Inv →
    (serveAll s es).1.Inv ∧ (serveAll s es).2.length = es.countP (fun e => !HostEvent.isReset e)

/-- Every step keeps the invariant. -/
def Obligations.EveryStepKeepsTheInvariant : Prop := ∀ s t : State, s.Inv → step s = .next t → t.Inv

/-- The reset state meets the invariant. -/
def Obligations.ResetMeetsTheInvariant : Prop := State.reset.Inv

/-! ### binary64 -/

/-- The rounding of IEEE 754 binary64, which R13 names and whose contents the model takes from the standard (PRESUMED, log entry
11; G6), the overflow threshold among them: of all binary64 values of its sign, a finite rounded value is one nearest to the
exact n / d units, and on a tie its significand is even; the rounding overflows to infinity exactly from half a unit in the last
place past the largest value on. -/
def Obligations.RoundingIsToNearestTiesToEven : Prop :=
  ∀ (neg : Bool) (n d : Nat), 0 < d →
    (∀ m k, roundUnits neg n d = .fin neg m k → ∀ m' k', Canonical (.fin neg m' k') →
      ((n : Int) - d * units m k).natAbs ≤ ((n : Int) - d * units m' k').natAbs ∧
      (((n : Int) - d * units m k).natAbs = ((n : Int) - d * units m' k').natAbs →
        units m k = units m' k' ∨ m % 2 = 0)) ∧
    (roundUnits neg n d = .inf neg ↔ d * units (2 ^ 54 - 1) 2045 ≤ 2 * n) ∧
    (roundUnits neg n d = .inf neg ∨ ∃ m k, roundUnits neg n d = .fin neg m k)

/-- R42: every word but a NaN is recovered from its value, and every canonical value from its word. -/
def Obligations.WordsAndValuesCorrespond : Prop :=
  (∀ (nanBits : BitVec 52) (b : F64), isNan b = false → pack nanBits (unpack b) = b) ∧
  (∀ (nanBits : BitVec 52) (v : Fp), Canonical v → unpack (pack nanBits v) = v ∧ QuietIfNan (pack nanBits v)) ∧
  (∀ b : F64, Canonical (unpack b))

end
end

