-- ==== Sys2Proof/Laws/Decode.lean ====
section
/-! SUPPORT. The packed word of a request and its fields. -/

namespace Sys2Proof

/-- Bit by bit, where each field of a request stands in its packed word (R61). -/
theorem getLsbD_toWord (r : Request) (i : Nat) :
    r.toWord.getLsbD i =
      if i < 3 then r.op.getLsbD i
      else if i < 8 then false
      else if i < 11 then r.tcType.getLsbD (i - 8)
      else if i < 32 then false
      else if i < 64 then r.frame.getLsbD (i - 32)
      else r.x.getLsbD (i - 64) := by
  simp only [Request.toWord, BitVec.getLsbD_append, BitVec.getLsbD_zero]
  by_cases h1 : i < 3
  · simp [h1]
  by_cases h2 : i < 8
  · have : i - 3 < 5 := by omega
    simp [h1, h2, this]
  by_cases h3 : i < 11
  · have a : ¬ i - 3 < 5 := by omega
    have b : i - 3 - 5 < 3 := by omega
    have c : i - 3 - 5 = i - 8 := by omega
    simp [h1, h2, h3, a, ← c, b]
  by_cases h4 : i < 32
  · have a : ¬ i - 3 < 5 := by omega
    have b : ¬ i - 3 - 5 < 3 := by omega
    have c : i - 3 - 5 - 3 < 21 := by omega
    simp [h1, h2, h3, h4, a, b, c]
  have a : ¬ i - 3 < 5 := by omega
  have b : ¬ i - 3 - 5 < 3 := by omega
  have c : ¬ i - 3 - 5 - 3 < 21 := by omega
  have d : i - 3 - 5 - 3 - 21 = i - 32 := by omega
  by_cases h5 : i < 64
  · have e : i - 32 < 32 := by omega
    simp [h1, h2, h3, h4, h5, a, b, c, d, e]
  · have e : ¬ i - 32 < 32 := by omega
    have f : i - 32 - 32 = i - 64 := by omega
    simp [h1, h2, h3, h4, h5, a, b, c, d, e, f]

/-- Packing a record and reading its fields gives the record back. -/
theorem ofWord_toWord (r : Request) : Request.ofWord r.toWord = r := by
  have hop : r.toWord.extractLsb' 0 3 = r.op := by
    ext i hi
    simp only [BitVec.getElem_extractLsb', getLsbD_toWord, Nat.zero_add, hi, if_true]
    exact BitVec.getLsbD_eq_getElem hi
  have hfr : r.toWord.extractLsb' 32 32 = r.frame := by
    ext i hi
    simp only [BitVec.getElem_extractLsb', getLsbD_toWord]
    rw [if_neg (by omega), if_neg (by omega), if_neg (by omega), if_neg (by omega), if_pos (by omega), Nat.add_sub_cancel_left]
    exact BitVec.getLsbD_eq_getElem hi
  have htc : r.toWord.extractLsb' 8 3 = r.tcType := by
    ext i hi
    simp only [BitVec.getElem_extractLsb', getLsbD_toWord]
    rw [if_neg (by omega), if_neg (by omega), if_pos (by omega), Nat.add_sub_cancel_left]
    exact BitVec.getLsbD_eq_getElem hi
  have hx : r.toWord.extractLsb' 64 64 = r.x := by
    ext i hi
    simp only [BitVec.getElem_extractLsb', getLsbD_toWord]
    rw [if_neg (by omega), if_neg (by omega), if_neg (by omega), if_neg (by omega), if_neg (by omega), Nat.add_sub_cancel_left]
    exact BitVec.getLsbD_eq_getElem hi
  simp only [Request.ofWord, hop, hfr, htc, hx]

theorem getLsbD_reservedMask :
    ∀ i : Fin 128, Request.reservedMask.getLsbD i = (decide (3 ≤ i.val ∧ i.val < 8) || decide (11 ≤ i.val ∧ i.val < 32)) := by
  decide

/-- The reserved bits of a packed record are zero (R61). -/
theorem toWord_reserved (r : Request) : r.toWord &&& Request.reservedMask = 0 := by
  apply BitVec.eq_of_getLsbD_eq
  intro i hi
  rw [BitVec.getLsbD_and, getLsbD_toWord, getLsbD_reservedMask ⟨i, hi⟩]
  split_ifs <;> simp <;> omega

/-- Masking the reserved bits off does not change what the fields read. -/
theorem ofWord_mask (w : RequestWord) : Request.ofWord (w &&& ~~~Request.reservedMask) = Request.ofWord w := by
  have hbit : ∀ i : Nat, ∀ h : i < 128, ¬ (3 ≤ i ∧ i < 8) → ¬ (11 ≤ i ∧ i < 32) →
      (w &&& ~~~Request.reservedMask).getLsbD i = w.getLsbD i := by
    intro i h h1 h2
    rw [BitVec.getLsbD_and, BitVec.getLsbD_not, getLsbD_reservedMask ⟨i, h⟩]
    simp only [h1, h2, decide_false, Bool.or_self, Bool.not_false, Bool.and_true, h, decide_true]
  have hfield : ∀ start len : Nat, start + len ≤ 128 → (∀ j < len, ¬ (3 ≤ start + j ∧ start + j < 8)) →
      (∀ j < len, ¬ (11 ≤ start + j ∧ start + j < 32)) →
      (w &&& ~~~Request.reservedMask).extractLsb' start len = w.extractLsb' start len := by
    intro start len hs h1 h2
    ext i hi
    simp only [BitVec.getElem_extractLsb']
    exact hbit _ (by omega) (h1 i hi) (h2 i hi)
  simp only [Request.ofWord]
  rw [hfield 0 3 (by omega) (by omega) (by omega), hfield 32 32 (by omega) (by omega) (by omega),
    hfield 8 3 (by omega) (by omega) (by omega), hfield 64 64 (by omega) (by omega) (by omega)]

/-- The decoder reads from a packed record the operation the record selects. -/
theorem decode_toWord (r : Request) : decode r.toWord = decodeRequest r := by
  rw [decode, ofWord_toWord]

/-- The one case split of the decoder: what `op` is decides everything. -/
theorem decodeRequest_cases (r : Request) :
    (r.op = 0b000#3 ∧ decodeRequest r = .ok (.decodeInternal r.frame)) ∨
    (r.op = 0b001#3 ∧ decodeRequest r = .ok (.decodeTc r.frame)) ∨
    (r.op = 0b010#3 ∧ decodeRequest r = .ok (.classify r.frame)) ∨
    (r.op = 0b011#3 ∧ decodeRequest r = .ok (.correct r.frame r.tcType)) ∨
    (r.op = 0b100#3 ∧ decodeRequest r = .ok (.filter r.x)) ∨
    ((r.op = 0b101#3 ∨ r.op = 0b110#3 ∨ r.op = 0b111#3) ∧ decodeRequest r = .error (.reservedOp r.op)) := by
  have h8 : ∀ b : BitVec 3, b = 0b000#3 ∨ b = 0b001#3 ∨ b = 0b010#3 ∨ b = 0b011#3 ∨ b = 0b100#3 ∨ b = 0b101#3 ∨
      b = 0b110#3 ∨ b = 0b111#3 := by decide
  rcases h8 r.op with h | h | h | h | h | h | h | h <;> simp [decodeRequest, h]

end Sys2Proof
end

