-- ==== Sys2Proof/Laws/Float.lean ====
section
/-! SUPPORT. What the binary64 operations can answer: canonical values, exact rounding of representable values, and the round trip
between words and values. -/

namespace Sys2Proof.Machine

theorem exponentField_lt (b : F64) : exponentField b < 2048 := by
  have := (b.extractLsb' 52 11).isLt
  simpa [exponentField] using this

theorem fractionField_lt (b : F64) : fractionField b < 2 ^ 52 := by
  have := (b.extractLsb' 0 52).isLt
  simpa [fractionField] using this

/-- Unpacking gives a canonical value. -/
theorem unpack_canonical (b : F64) : Canonical (unpack b) := by
  have he := exponentField_lt b
  have hf := fractionField_lt b
  unfold unpack
  split
  · split <;> trivial
  · split
    · exact ⟨by omega, by omega, Or.inl rfl⟩
    · exact ⟨by omega, by omega, Or.inr (by omega)⟩

theorem log2_bounds {n : Nat} (h : n ≠ 0) : 2 ^ Nat.log2 n ≤ n ∧ n < 2 ^ (Nat.log2 n + 1) :=
  ⟨Nat.log2_self_le h, Nat.lt_log2_self⟩

/-- The quotient at the rounding exponent has at most 53 bits, and exactly 53 unless the exponent is the lowest. -/
theorem quotient_bounds (n d : Nat) :
    n / (d * 2 ^ roundExponent n d) < 2 ^ 53 ∧
    (roundExponent n d = 0 ∨ 2 ^ 52 ≤ n / (d * 2 ^ roundExponent n d)) := by
  rw [← Nat.div_div_eq_div_mul]
  unfold roundExponent
  generalize hq : n / d = q
  by_cases h0 : q = 0
  · subst h0; simp
  obtain ⟨hlo, hhi⟩ := log2_bounds h0
  by_cases hk : Nat.log2 q ≤ 52
  · have hz : Nat.log2 q - 52 = 0 := by omega
    rw [hz]
    refine ⟨?_, Or.inl rfl⟩
    simp only [pow_zero, Nat.div_one]
    exact lt_of_lt_of_le hhi (Nat.pow_le_pow_right (by norm_num) (by omega))
  · have hsplit : Nat.log2 q = 52 + (Nat.log2 q - 52) := by omega
    generalize Nat.log2 q - 52 = j at *
    rw [hsplit] at hlo hhi
    have hpos : 0 < 2 ^ j := Nat.two_pow_pos j
    refine ⟨?_, Or.inr ?_⟩
    · rw [Nat.div_lt_iff_lt_mul hpos, ← Nat.pow_add]
      have : 52 + j + 1 = 53 + j := by omega
      rwa [this] at hhi
    · rw [Nat.le_div_iff_mul_le hpos, ← Nat.pow_add]
      exact hlo

/-- Rounding gives a canonical value. -/
theorem roundUnits_canonical (neg : Bool) (n d : Nat) : Canonical (roundUnits neg n d) := by
  obtain ⟨hlt, hge⟩ := quotient_bounds n d
  simp only [roundUnits, roundFinish]
  generalize roundExponent n d = k at *
  generalize n / (d * 2 ^ k) = q at *
  split <;> split <;> split <;> first | trivial | (simp only [Canonical]; omega)

/-- A canonical value is recovered from its own exact count of units: rounding does nothing to a representable value. -/
theorem roundUnits_exact (neg : Bool) (m k d : Nat) (hd : 0 < d) (hc : Canonical (.fin neg m k)) :
    roundUnits neg (units m k * d) d = .fin neg m k := by
  obtain ⟨hm, hk, hn⟩ := hc
  have hexp : roundExponent (units m k * d) d = k := by
    simp only [roundExponent, Nat.mul_div_cancel _ hd, units]
    rcases hn with rfl | hn
    · rw [pow_zero, Nat.mul_one]
      have : Nat.log2 m < 53 := by
        by_cases h0 : m = 0
        · subst h0; decide
        · exact (Nat.log2_lt h0).2 hm
      omega
    · have hm0 : m ≠ 0 := by
        intro h; subst h; norm_num at hn
      have h0 : m * 2 ^ k ≠ 0 := Nat.mul_ne_zero hm0 (Nat.two_pow_pos k).ne'
      have hlo : 52 + k ≤ Nat.log2 (m * 2 ^ k) := by
        rw [Nat.le_log2 h0, Nat.pow_add]
        exact Nat.mul_le_mul_right _ hn
      have hhi : Nat.log2 (m * 2 ^ k) < 53 + k := by
        rw [Nat.log2_lt h0, Nat.pow_add]
        exact Nat.mul_lt_mul_of_pos_right hm (Nat.two_pow_pos k)
      omega
  have hD : units m k * d = m * (d * 2 ^ k) := by simp only [units]; ring
  have hpos : 0 < d * 2 ^ k := Nat.mul_pos hd (Nat.two_pow_pos k)
  simp only [roundUnits, hexp, roundFinish]
  rw [hD, Nat.mul_div_cancel _ hpos]
  have hup : roundsUp (m * (d * 2 ^ k)) (d * 2 ^ k) = false := by
    simp only [roundsUp, Nat.mul_mod_left]
    simp
    omega
  rw [hup]
  have h53 : m ≠ 2 ^ 53 := by omega
  simp only [Bool.false_eq_true, if_false, h53]
  rw [if_neg (by omega)]

@[simp] theorem roundUnits_zero (neg : Bool) (d : Nat) : roundUnits neg 0 d = .fin neg 0 0 := by
  simp only [roundUnits, roundExponent, Nat.zero_div]
  have : Nat.log2 0 - 52 = 0 := by decide
  rw [this]
  simp only [roundsUp, Nat.zero_mod, Nat.zero_div, roundFinish]
  simp

/-! ### Words and values -/

theorem signBit_packFields (neg : Bool) (e f : Nat) : signBit (packFields neg e f) = neg := by
  rw [signBit, BitVec.msb_eq_getLsbD_last]
  simp only [packFields, BitVec.getLsbD_append]
  simp

theorem exponentField_packFields (neg : Bool) (e f : Nat) (he : e < 2048) : exponentField (packFields neg e f) = e := by
  have : (packFields neg e f).extractLsb' 52 11 = BitVec.ofNat 11 e := by
    ext i hi
    simp only [packFields, BitVec.getElem_extractLsb', BitVec.getLsbD_append]
    have h1 : ¬ 52 + i < 52 := by omega
    have h2 : 52 + i - 52 = i := by omega
    simp [hi, h1, h2]
  simp [exponentField, this, Nat.mod_eq_of_lt he]

theorem fractionField_packFields (neg : Bool) (e f : Nat) (hf : f < 2 ^ 52) : fractionField (packFields neg e f) = f := by
  have : (packFields neg e f).extractLsb' 0 52 = BitVec.ofNat 52 f := by
    ext i hi
    simp only [packFields, BitVec.getElem_extractLsb', BitVec.getLsbD_append]
    simp [hi]
  rw [fractionField, this, BitVec.toNat_ofNat]
  exact Nat.mod_eq_of_lt hf

theorem fields_quietNan (p : BitVec 52) :
    exponentField (quietNan p) = 2047 ∧ 2 ^ 51 ≤ fractionField (quietNan p) := by
  have h1 : (quietNan p).extractLsb' 52 11 = 0x7FF#11 := by
    ext i hi
    simp only [quietNan, BitVec.getElem_extractLsb', BitVec.getLsbD_append]
    have h1 : ¬ 52 + i < 51 := by omega
    have h3 : 52 + i - 51 - 1 = i := by omega
    have h4 : ¬ 52 + i - 51 < 1 := by omega
    simp [hi, h1, h3, h4]
  have h2 : (quietNan p).extractLsb' 0 52 = 1#1 ++ p.extractLsb' 0 51 := by
    apply BitVec.eq_of_getLsbD_eq
    intro i hi
    simp only [quietNan, BitVec.getLsbD_extractLsb', BitVec.getLsbD_append]
    by_cases h : i < 51
    · simp [h, hi]
    · have h3 : i = 51 := by omega
      subst h3
      simp
  constructor
  · rw [exponentField, h1]; rfl
  · rw [fractionField, h2, BitVec.toNat_append, ← Nat.shiftLeft_add_eq_or_of_lt (BitVec.isLt _)]
    simp [Nat.shiftLeft_eq]

/-- Two words with the same three fields are the same word. -/
theorem packFields_fields (b : F64) : packFields (signBit b) (exponentField b) (fractionField b) = b := by
  apply BitVec.eq_of_getLsbD_eq
  intro i hi
  simp only [packFields, BitVec.getLsbD_append, signBit, exponentField, fractionField, BitVec.ofNat_toNat]
  by_cases h1 : i < 52
  · simp [h1]
  · by_cases h2 : i < 63
    · have h3 : i - 52 < 11 := by omega
      have h4 : 52 + (i - 52) = i := by omega
      simp [h1, h3, h4]
    · have h3 : i = 63 := by omega
      subst h3
      simp [BitVec.msb_eq_getLsbD_last]

/-- Unpacking undoes packing on canonical values, NaN included whatever its payload. -/
theorem unpack_pack (p : BitVec 52) (v : Fp) (hc : Canonical v) : unpack (pack p v) = v := by
  cases v with
  | nan =>
    obtain ⟨he, hf⟩ := fields_quietNan p
    have : fractionField (quietNan p) ≠ 0 := by omega
    simp [unpack, pack, he, this]
  | inf neg =>
    have he := exponentField_packFields neg 2047 0 (by omega)
    have hf := fractionField_packFields neg 2047 0 (by omega)
    simp [unpack, pack, he, hf, signBit_packFields]
  | fin neg m k =>
    obtain ⟨hm, hk, hn⟩ := hc
    have hs := signBit_packFields neg (if m < 2 ^ 52 then 0 else k + 1) (m % 2 ^ 52)
    have he := exponentField_packFields neg (if m < 2 ^ 52 then 0 else k + 1) (m % 2 ^ 52) (by split <;> omega)
    have hf := fractionField_packFields neg (if m < 2 ^ 52 then 0 else k + 1) (m % 2 ^ 52) (Nat.mod_lt _ (by omega))
    simp only [unpack, pack, he, hf, hs]
    by_cases h : m < 2 ^ 52
    · have hk0 : k = 0 := by omega
      subst hk0
      simp only [if_pos h, Nat.mod_eq_of_lt h, if_true]
      rfl
    · have h1 : k + 1 ≠ 2047 := by omega
      have h2 : 2 ^ 52 + m % 2 ^ 52 = m := by omega
      simp only [h, if_false, h1, Nat.add_one_ne_zero, Nat.add_sub_cancel, h2]

/-- Packing undoes unpacking on every word but a NaN. -/
theorem pack_unpack (p : BitVec 52) (b : F64) (h : unpack b ≠ .nan) : pack p (unpack b) = b := by
  have he := exponentField_lt b
  have hf := fractionField_lt b
  have hb := packFields_fields b
  unfold unpack at h ⊢
  split
  · rename_i h1
    simp only [h1, if_true] at h
    split
    · rename_i h2
      rw [h1, h2] at hb
      exact hb
    · rename_i h2
      simp [h2] at h
  · rename_i h1
    split
    · rename_i h2
      rw [h2] at hb
      simp only [pack, if_pos hf, Nat.mod_eq_of_lt hf]
      exact hb
    · rename_i h2
      have h3 : ¬ 2 ^ 52 + fractionField b < 2 ^ 52 := by omega
      have h4 : exponentField b - 1 + 1 = exponentField b := by omega
      have h5 : (2 ^ 52 + fractionField b) % 2 ^ 52 = fractionField b := by omega
      simp only [pack, if_neg h3, h4, h5]
      exact hb

theorem isNan_iff (b : F64) : isNan b = true ↔ unpack b = .nan := by
  unfold isNan unpack
  by_cases h1 : exponentField b = 2047 <;> by_cases h2 : fractionField b = 0 <;> by_cases h3 : exponentField b = 0 <;>
    simp [h1, h2, h3]

theorem isFinite_iff (b : F64) : isFinite b = true ↔ ∃ neg m k, unpack b = .fin neg m k := by
  unfold isFinite unpack
  by_cases h1 : exponentField b = 2047 <;> by_cases h2 : fractionField b = 0 <;> by_cases h3 : exponentField b = 0 <;>
    simp [h1, h2, h3]

theorem quietNan_isNan (p : BitVec 52) : isNan (quietNan p) = true := by
  obtain ⟨he, hf⟩ := fields_quietNan p
  simp [isNan, he]
  omega

theorem quietNan_quiet (p : BitVec 52) : (quietNan p).getLsbD 51 = true := by
  simp only [quietNan, BitVec.getLsbD_append]
  simp

/-- A packed canonical value is never a signalling NaN. -/
theorem quietIfNan_pack (p : BitVec 52) (v : Fp) (hc : Canonical v) : QuietIfNan (pack p v) := by
  intro h
  rw [isNan_iff, unpack_pack p v hc] at h
  subst h
  exact quietNan_quiet p

/-! ### The operations -/

theorem one_eq : one = .fin false (2 ^ 52) 1022 := by decide +kernel
theorem tcLsb_eq : tcLsb = .fin false (2 ^ 52) 1020 := by decide +kernel
theorem cjLsb_eq : cjLsb = .fin false (2 ^ 52) 1018 := by decide +kernel
theorem unpack_posZero : unpack posZero = .fin false 0 0 := by decide +kernel

theorem unitExponent_eq : unitExponent = 1074 := by unfold unitExponent; rfl
theorem infinityExponent_eq : infinityExponent = 2098 := by unfold infinityExponent; rfl

theorem oneUnits_pos : 0 < oneUnits := Nat.two_pow_pos unitExponent

theorem units_one (k : Nat) (h : k = unitExponent) : units 1 k = oneUnits := by
  rw [units, h, Nat.one_mul, oneUnits]

theorem units_mul_pow (m j k : Nat) : units (m * 2 ^ j) k = m * units 1 (j + k) := by
  simp only [units, Nat.one_mul, Nat.pow_add, Nat.mul_assoc]

/-- `2^52` units of a value whose exponent is that of 1.0 are 1.0. -/
theorem one_units : units (2 ^ 52) 1022 = oneUnits := by
  have h := units_mul_pow 1 52 1022
  rw [units_one _ (by rw [unitExponent_eq]), Nat.one_mul, Nat.one_mul] at h
  exact h

@[simp] theorem fadd_nan_left (b : Fp) : fadd .nan b = .nan := by cases b <;> rfl
@[simp] theorem fadd_nan_right (a : Fp) : fadd a .nan = .nan := by cases a <;> rfl
@[simp] theorem fmul_nan_left (b : Fp) : fmul .nan b = .nan := by cases b <;> rfl
@[simp] theorem fmul_nan_right (a : Fp) : fmul a .nan = .nan := by cases a <;> rfl
@[simp] theorem fdiv_nan_left (b : Fp) : fdiv .nan b = .nan := by cases b <;> rfl
@[simp] theorem fdiv_nan_right (a : Fp) : fdiv a .nan = .nan := by cases a <;> rfl

theorem fneg_canonical (a : Fp) (h : Canonical a) : Canonical (fneg a) := by
  cases a
  · trivial
  · trivial
  · exact h

/-- Every sum is canonical: a rounded value, or an operand, or an exact zero. -/
theorem fadd_canonical (a b : Fp) : Canonical (fadd a b) := by
  cases a <;> cases b <;> simp only [fadd, addFinite] <;> try trivial
  · split <;> trivial
  · split
    · simp [Canonical]
    · exact roundUnits_canonical _ _ _

theorem fmul_canonical (a b : Fp) : Canonical (fmul a b) := by
  cases a <;> cases b <;> simp only [fmul] <;> try trivial
  · split <;> trivial
  · split <;> trivial
  · exact roundUnits_canonical _ _ _

theorem fdiv_canonical (a b : Fp) : Canonical (fdiv a b) := by
  cases a <;> cases b <;> simp only [fdiv] <;> try trivial
  split
  · split <;> trivial
  · exact roundUnits_canonical _ _ _

/-- 1.0 times a canonical value is that value. -/
theorem fmul_one_left (v : Fp) (hc : Canonical v) : fmul one v = v := by
  rw [one_eq]
  cases v with
  | nan => rfl
  | inf neg => simp [fmul]
  | fin neg m k =>
    simp only [fmul, one_units, Nat.mul_comm oneUnits, Bool.false_bne]
    exact roundUnits_exact neg m k oneUnits oneUnits_pos hc

/-- A zero times a finite value is a zero with the product's sign. -/
theorem fmul_zero_fin (s t : Bool) (k m k' : Nat) : fmul (.fin s 0 k) (.fin t m k') = .fin (s != t) 0 0 := by
  simp [fmul, units]

/-- Adding a zero to a canonical nonzero value gives that value. -/
theorem fadd_zero_left (s t : Bool) (k m k' : Nat) (hm : m ≠ 0) (hc : Canonical (.fin t m k')) :
    fadd (.fin s 0 k) (.fin t m k') = .fin t m k' := by
  have hu : units m k' ≠ 0 := Nat.mul_ne_zero hm (Nat.two_pow_pos k').ne'
  have hr := roundUnits_exact t m k' 1 Nat.one_pos hc
  rw [Nat.mul_one] at hr
  have hz : units 0 k = 0 := by simp [units]
  cases s <;> cases t <;>
    simp only [fadd, addFinite, signed, hz, Bool.false_eq_true, if_true, if_false, Int.natCast_zero, Int.neg_zero, Int.zero_add] <;>
    rw [if_neg (by omega)]
  all_goals first
    | (rw [decide_eq_false (by omega), Int.natAbs_natCast]; exact hr)
    | (rw [decide_eq_true (by omega), Int.natAbs_neg, Int.natAbs_natCast]; exact hr)

theorem fadd_zero_right (s t : Bool) (k m k' : Nat) (hm : m ≠ 0) (hc : Canonical (.fin t m k')) :
    fadd (.fin t m k') (.fin s 0 k) = .fin t m k' := by
  have h := fadd_zero_left s t k m k' hm hc
  simp only [fadd, addFinite] at h ⊢
  rw [Int.add_comm, Bool.and_comm]
  exact h

/-- The sum of two zeros: -0.0 only when both are negative. -/
theorem fadd_zeros (s t : Bool) (k k' : Nat) : fadd (.fin s 0 k) (.fin t 0 k') = .fin (s && t) 0 0 := by
  cases s <;> cases t <;> simp [fadd, addFinite, signed, units]

end Sys2Proof.Machine
end

