-- ==== Sys2Proof/Laws/Order.lean ====
section
/-! SUPPORT. The ordered comparisons, region selection, and exact products with a power of two. -/

namespace Sys2Proof.Machine

theorem orderKey_none_iff (v : Fp) : orderKey v = none ↔ v = .nan := by cases v <;> simp [orderKey]

theorem fge_iff (a b : Fp) : fge a b = true ↔ ∃ x y, orderKey a = some x ∧ orderKey b = some y ∧ y ≤ x := by
  unfold fge
  cases orderKey a <;> cases orderKey b <;> simp

theorem flt_iff (a b : Fp) : flt a b = true ↔ ∃ x y, orderKey a = some x ∧ orderKey b = some y ∧ x < y := by
  unfold flt
  cases orderKey a <;> cases orderKey b <;> simp

theorem flt_trans {a b c : Fp} (h : flt a b = true) (h' : flt b c = true) : flt a c = true := by
  rw [flt_iff] at *
  obtain ⟨x, y, hx, hy, hxy⟩ := h
  obtain ⟨y', z, hy', hz, hyz⟩ := h'
  rw [hy] at hy'
  cases hy'
  exact ⟨x, z, hx, hz, by omega⟩

/-- A value at or above a boundary is at or above every lower one. -/
theorem fge_of_flt {a b c : Fp} (h : fge a b = true) (h' : flt c b = true) : fge a c = true := by
  rw [fge_iff, flt_iff] at *
  obtain ⟨x, y, hx, hy, hxy⟩ := h
  obtain ⟨z, y', hz, hy', hyz⟩ := h'
  rw [hy] at hy'
  cases hy'
  exact ⟨x, z, hx, hz, by omega⟩

/-- Increasing boundaries are increasing pairwise. -/
theorem increasing_pairwise : ∀ bs : List F64, increasing bs = true → bs.Pairwise (fun a b => flt (unpack a) (unpack b) = true)
  | [], _ => List.Pairwise.nil
  | [a], _ => by simp
  | a :: b :: bs, h => by
    simp only [increasing, Bool.and_eq_true] at h
    have ih := increasing_pairwise (b :: bs) h.2
    refine List.Pairwise.cons ?_ ih
    intro c hc
    rcases List.mem_cons.1 hc with rfl | hc
    · exact h.1
    · exact flt_trans h.1 ((List.pairwise_cons.1 ih).1 c hc)

/-- The selection loop stops at the first boundary above `v`: the boundaries before it are at or below `v`. -/
theorem selectLoop_spec (v : Fp) : ∀ (bs : List F64) (i : Nat),
    ∃ n, selectLoop v i bs = i + n ∧ n ≤ bs.length ∧ (∀ b ∈ bs.take n, fge v (unpack b) = true) ∧
      ∀ b, bs[n]? = some b → fge v (unpack b) = false
  | [], i => ⟨0, by simp [selectLoop]⟩
  | b :: bs, i => by
    by_cases h : fge v (unpack b) = true
    · obtain ⟨n, h1, h2, h3, h4⟩ := selectLoop_spec v bs (i + 1)
      refine ⟨n + 1, ?_, by simpa using h2, ?_, by simpa using h4⟩
      · simp only [selectLoop, h, if_true, h1]; omega
      · intro c hc
        rcases List.mem_cons.1 (by simpa using hc) with rfl | hc
        · exact h
        · exact h3 c hc
    · refine ⟨0, ?_, by simp, by simp, ?_⟩
      · simp [selectLoop, h]
      · intro c hc
        simp only [List.getElem?_cons_zero, Option.some.injEq] at hc
        subst hc
        simpa using h

/-- Any significand below 2^53 at an exponent in range has a canonical form. -/
theorem exists_canonical (neg : Bool) : ∀ (k m : Nat), m < 2 ^ 53 → k ≤ 2045 →
    ∃ m' k', Canonical (.fin neg m' k') ∧ units m' k' = units m k
  | 0, m, hm, _ => ⟨m, 0, ⟨hm, by omega, Or.inl rfl⟩, rfl⟩
  | k + 1, m, hm, hk => by
    by_cases h : 2 ^ 52 ≤ m
    · exact ⟨m, k + 1, ⟨hm, hk, Or.inr h⟩, rfl⟩
    · obtain ⟨m', k', hc, hu⟩ := exists_canonical neg k (2 * m) (by omega) (by omega)
      refine ⟨m', k', hc, hu.trans ?_⟩
      simp only [units, Nat.pow_succ]
      ring

/-- Rounding `m * 2^k * d / d` units is exact when `m` has at most 53 bits. -/
theorem orderKey_roundUnits (neg : Bool) (m k d : Nat) (hd : 0 < d) (hm : m < 2 ^ 53) (hk : k ≤ 2045) :
    ∃ m' k', roundUnits neg (units m k * d) d = .fin neg m' k' ∧ Canonical (.fin neg m' k') ∧ units m' k' = units m k := by
  obtain ⟨m', k', hc, hu⟩ := exists_canonical neg k m hm hk
  exact ⟨m', k', by rw [← hu]; exact roundUnits_exact neg m' k' d hd hc, hc, hu⟩

/-- f64 of an integer below 2^53 in magnitude is exact (R13). -/
theorem f64_exact (n : Int) (hn : n.natAbs < 2 ^ 53) :
    ∃ m k, f64 n = .fin (decide (n < 0)) m k ∧ Canonical (f64 n) ∧ units m k = n.natAbs * oneUnits := by
  obtain ⟨m, k, h, hc, hu⟩ := orderKey_roundUnits (decide (n < 0)) n.natAbs 1074 1 Nat.one_pos hn (by omega)
  have h1 : units n.natAbs 1074 = n.natAbs * oneUnits := by
    have := units_mul_pow n.natAbs 0 1074
    rwa [Nat.pow_zero, Nat.mul_one, units_one (0 + 1074) (by rw [unitExponent_eq])] at this
  rw [Nat.mul_one, h1] at h
  have hf : f64 n = .fin (decide (n < 0)) m k := h
  exact ⟨m, k, hf, by rw [hf]; exact hc, hu.trans h1⟩

/-- The product of an integer below 2^53 in magnitude and 2^-j is exact, with the sign of the integer (R103). -/
theorem fmul_f64_pow (n : Int) (j : Nat) (hn : n.natAbs < 2 ^ 53) (hj : j ≤ 52) :
    ∃ m k, fmul (f64 n) (.fin false (2 ^ 52) (1022 - j)) = .fin (decide (n < 0)) m k ∧ Canonical (.fin (decide (n < 0)) m k) ∧
      units m k * 2 ^ j = n.natAbs * oneUnits := by
  obtain ⟨m, k, hf, -, hu⟩ := f64_exact n hn
  obtain ⟨m', k', h, hc, hu'⟩ :=
    orderKey_roundUnits (decide (n < 0)) n.natAbs (52 + (1022 - j)) oneUnits oneUnits_pos hn (by omega)
  have e1 : units (2 ^ 52) (1022 - j) = units 1 (52 + (1022 - j)) := by
    have := units_mul_pow 1 52 (1022 - j)
    rwa [Nat.one_mul, Nat.one_mul] at this
  have e2 : units n.natAbs (52 + (1022 - j)) = n.natAbs * units 1 (52 + (1022 - j)) := by
    simp only [units, Nat.one_mul]
  refine ⟨m', k', ?_, hc, ?_⟩
  · rw [← h, hf]
    simp only [fmul, Bool.bne_false, hu, e1, e2]
    congr 1
    ring
  · rw [hu', e2, Nat.mul_assoc]
    congr 1
    have := units_mul_pow 1 j (52 + (1022 - j))
    have hone := units_one (j + (52 + (1022 - j))) (by rw [unitExponent_eq]; omega)
    rw [hone, Nat.one_mul, Nat.one_mul] at this
    rw [← this]
    simp only [units, Nat.one_mul]
    ring

end Sys2Proof.Machine
end

