-- ==== Sys2Proof/Laws/Operands.lean ====
section
/-! SUPPORT. The codes of a frame are the signed values of its fields, and the two temperatures are exact (spec/40_frame_decoder.md
R103). -/

namespace Sys2Proof.Machine

/-- The sign extension of R12 is the two's-complement value of the field. -/
theorem sext_eq_toInt {N : Nat} (v : BitVec N) : sext v = v.toInt := by
  unfold sext
  rw [BitVec.toInt_eq_msb_cond]
  simp

theorem tcCode_range (f : Frame) : -8192 ≤ tcCode f ∧ tcCode f ≤ 8191 := by
  have h1 := BitVec.le_toInt (tcField f)
  have h2 := BitVec.toInt_lt (x := tcField f)
  rw [tcCode, sext_eq_toInt]
  omega

theorem cjCode_range (f : Frame) : -2048 ≤ cjCode f ∧ cjCode f ≤ 2047 := by
  have h1 := BitVec.le_toInt (cjField f)
  have h2 := BitVec.toInt_lt (x := cjField f)
  rw [cjCode, sext_eq_toInt]
  omega

/-- The bits given to `pack` matter for a NaN only. -/
theorem pack_congr (p q : BitVec 52) (v : Fp) (h : v ≠ .nan) : pack p v = pack q v := by
  cases v with
  | nan => exact absurd rfl h
  | inf neg => rfl
  | fin neg m k => rfl

/-- The thermocouple temperature is exactly the code times 0.25, with the code's sign. -/
theorem approxCelsius_exact (f : Frame) :
    ∃ m k, approxCelsius f = .fin (decide (tcCode f < 0)) m k ∧ Canonical (.fin (decide (tcCode f < 0)) m k) ∧
      units m k * 4 = (tcCode f).natAbs * oneUnits := by
  have := tcCode_range f
  rw [approxCelsius, tcLsb_eq]
  exact fmul_f64_pow (tcCode f) 2 (by omega) (by omega)

/-- The cold-junction temperature is exactly the code times 0.0625, with the code's sign. -/
theorem internalCelsius_exact (f : Frame) :
    ∃ m k, internalCelsius f = .fin (decide (cjCode f < 0)) m k ∧ Canonical (.fin (decide (cjCode f < 0)) m k) ∧
      units m k * 16 = (cjCode f).natAbs * oneUnits := by
  have := cjCode_range f
  rw [internalCelsius, cjLsb_eq]
  exact fmul_f64_pow (cjCode f) 4 (by omega) (by omega)

end Sys2Proof.Machine
end

