-- ==== Sys2Proof/Laws/State.lean ====
section
/-! SUPPORT. One lemma per field per update of State. -/

namespace Sys2Proof.Machine

@[simp] theorem withPrev_prev (s : State) (v : F64) : (s.withPrev v).prev = v := rfl
@[simp] theorem withPrev_alpha (s : State) (v : F64) : (s.withPrev v).alpha = s.alpha := rfl
@[simp] theorem withPrev_store (s : State) (v : F64) : (s.withPrev v).store = s.store := rfl
@[simp] theorem withPrev_rsp (s : State) (v : F64) : (s.withPrev v).rsp = s.rsp := rfl
@[simp] theorem withPrev_inputs (s : State) (v : F64) : (s.withPrev v).inputs = s.inputs := rfl

@[simp] theorem withRsp_prev (s : State) (r : Option Response) : (s.withRsp r).prev = s.prev := rfl
@[simp] theorem withRsp_alpha (s : State) (r : Option Response) : (s.withRsp r).alpha = s.alpha := rfl
@[simp] theorem withRsp_store (s : State) (r : Option Response) : (s.withRsp r).store = s.store := rfl
@[simp] theorem withRsp_rsp (s : State) (r : Option Response) : (s.withRsp r).rsp = r := rfl
@[simp] theorem withRsp_inputs (s : State) (r : Option Response) : (s.withRsp r).inputs = s.inputs := rfl

@[simp] theorem withInputs_prev (s : State) (es : List HostEvent) : (s.withInputs es).prev = s.prev := rfl
@[simp] theorem withInputs_alpha (s : State) (es : List HostEvent) : (s.withInputs es).alpha = s.alpha := rfl
@[simp] theorem withInputs_store (s : State) (es : List HostEvent) : (s.withInputs es).store = s.store := rfl
@[simp] theorem withInputs_rsp (s : State) (es : List HostEvent) : (s.withInputs es).rsp = s.rsp := rfl
@[simp] theorem withInputs_inputs (s : State) (es : List HostEvent) : (s.withInputs es).inputs = es := rfl

@[simp] theorem settings_withPrev (s : State) (v : F64) : (s.withPrev v).settings = s.settings := rfl
@[simp] theorem settings_withRsp (s : State) (r : Option Response) : (s.withRsp r).settings = s.settings := rfl
@[simp] theorem settings_withInputs (s : State) (es : List HostEvent) : (s.withInputs es).settings = s.settings := rfl

@[simp] theorem powerOn_prev (c : Settings) : (State.powerOn c).prev = posZero := rfl
@[simp] theorem powerOn_rsp (c : Settings) : (State.powerOn c).rsp = none := rfl
@[simp] theorem powerOn_inputs (c : Settings) : (State.powerOn c).inputs = [] := rfl
@[simp] theorem powerOn_settings (c : Settings) : (State.powerOn c).settings = c := rfl

end Sys2Proof.Machine
end

