-- ==== Sys2Proof/Laws/Ops.lean ====
section
/-! SUPPORT. What the shared operations, `exec` and `serve` can answer, said once each. -/

namespace Sys2Proof.Machine

/-- Everything an operation can do: FILTER writes `prev` and answers its new value; every other operation only answers. -/
theorem exec_cases (i : Instr) (s : State) :
    (∃ r, exec i s = .next (s.withRsp (some r)) ∧ ∀ x, i ≠ .filter x) ∨
    (∃ x, i = .filter x ∧
      exec i s = .next ((s.withPrev (filterWord s.alpha s.prev x)).withRsp (some (.ok (filterWord s.alpha s.prev x))))) := by
  cases i with
  | decodeInternal frame => exact .inl ⟨_, rfl, by simp⟩
  | decodeTc frame => exact .inl ⟨_, rfl, by simp⟩
  | classify frame => exact .inl ⟨_, rfl, by simp⟩
  | correct frame tcType =>
    left
    simp only [exec, execCorrect]
    split
    · exact ⟨_, rfl, by simp⟩
    · exact ⟨_, rfl, by simp⟩
  | filter x => exact .inr ⟨x, rfl, rfl⟩

/-- Everything an event can do. -/
theorem serve_cases (e : HostEvent) (s : State) :
    (∃ r, filterOperand e = none ∧ HostEvent.isReset e = false ∧ serve e s = .next (s.withRsp (some r))) ∨
    (∃ x, filterOperand e = some x ∧ HostEvent.isReset e = false ∧
      serve e s = .next ((s.withPrev (filterWord s.alpha s.prev x)).withRsp (some (.ok (filterWord s.alpha s.prev x))))) ∨
    (filterOperand e = none ∧ HostEvent.isReset e = true ∧ serve e s = .next ((s.withPrev posZero).withRsp none)) := by
  cases e with
  | reset => exact .inr (.inr ⟨rfl, rfl, rfl⟩)
  | requestCutByReset w => exact .inr (.inr ⟨rfl, rfl, rfl⟩)
  | request w =>
    simp only [serve, serveRequest, filterOperand]
    cases decode w with
    | error d => exact .inl ⟨_, rfl, rfl, rfl⟩
    | ok i =>
      rcases exec_cases i s with ⟨r, h, hi⟩ | ⟨x, rfl, h⟩
      · refine .inl ⟨r, ?_, rfl, h⟩
        cases i <;> first | rfl | exact absurd rfl (hi _)
      · exact .inr (.inl ⟨x, rfl, rfl, h⟩)

/-- Every event answers a next state with the settings and the remaining events as they were. -/
theorem serve_next (e : HostEvent) (s : State) :
    ∃ t, serve e s = .next t ∧ t.settings = s.settings ∧ t.inputs = s.inputs := by
  rcases serve_cases e s with ⟨r, -, -, h⟩ | ⟨x, -, -, h⟩ | ⟨-, -, h⟩ <;> exact ⟨_, h, rfl, rfl⟩

/-- The word FILTER writes stands for the smoother's value, NaN included. -/
theorem unpack_filterWord (alpha prev x : F64) : unpack (filterWord alpha prev x) = smoothed alpha prev x :=
  unpack_pack _ _ (fadd_canonical _ _)

/-- `poly` is canonical: its last operation is a sum. -/
theorem poly_canonical (r : Coeffs) (v : Fp) : Canonical (poly r v) := fadd_canonical _ _

theorem corrected_canonical (frame : Frame) (scale : F64) (table : Table) : Canonical (corrected frame scale table) :=
  poly_canonical _ _

end Sys2Proof.Machine
end

