-- ==== Sys2Proof/Laws/PerInstr.lean ====
section
/-! SUPPORT. Statements made per instruction: about each operation as syntax. -/

namespace Sys2Proof.Laws.EncodedFields

/-- The packed word of an operation carries exactly its request record: its op code, the fields it reads, zero in the fields it
does not read, and zero in every reserved bit (R61, R62, R64). -/
def Statement (i : Instr) : Prop :=
  Request.ofWord (encode i) = i.toRequest ∧ encode i &&& Request.reservedMask = 0 ∧
    i.wellFormed = true

theorem decodeInternal (frame : Frame) : Statement (.decodeInternal frame) :=
  ⟨ofWord_toWord _, toWord_reserved _, rfl⟩

theorem decodeTc (frame : Frame) : Statement (.decodeTc frame) := ⟨ofWord_toWord _, toWord_reserved _, rfl⟩

theorem classify (frame : Frame) : Statement (.classify frame) := ⟨ofWord_toWord _, toWord_reserved _, rfl⟩

theorem correct (frame : Frame) (tcType : TcCode) : Statement (.correct frame tcType) :=
  ⟨ofWord_toWord _, toWord_reserved _, rfl⟩

theorem filter (x : F64) : Statement (.filter x) := ⟨ofWord_toWord _, toWord_reserved _, rfl⟩

end Sys2Proof.Laws.EncodedFields
end

