-- ==== Sys2Proof/Laws/Round.lean ====
section
/-! SUPPORT. What rounding and the finite sum can answer: the rounded count of units is within half a step of the exact one, ties go
to an even quotient, and a representable sum is exact. -/

namespace Sys2Proof.Machine

/-- The rounded quotient of `n` by `D`: within half of `D`, and even on a tie. -/
theorem roundsUp_spec (n D : Nat) (hD : 0 < D) :
    let q := if roundsUp n D then n / D + 1 else n / D
    2 * n ≤ D * (2 * q + 1) ∧ D * (2 * q) ≤ 2 * n + D ∧
      (2 * n = D * (2 * q + 1) ∨ D * (2 * q) = 2 * n + D → q % 2 = 0) := by
  have hdiv := Nat.div_add_mod n D
  have hmod := Nat.mod_lt n hD
  have heq : roundsUp n D = true ↔ (D < 2 * (n % D) ∨ (2 * (n % D) = D ∧ n / D % 2 = 1)) := by
    simp [roundsUp]
  generalize n / D = q at *
  generalize n % D = r at *
  have e1 : D * (2 * q + 1) = 2 * (D * q) + D := by ring
  have e2 : D * (2 * q) = 2 * (D * q) := by ring
  have e3 : D * (2 * (q + 1) + 1) = 2 * (D * q) + 3 * D := by ring
  have e4 : D * (2 * (q + 1)) = 2 * (D * q) + 2 * D := by ring
  by_cases h : roundsUp n D = true
  · have h' := heq.1 h
    simp only [h, if_true]
    rw [e3, e4]
    omega
  · have h' : ¬ (D < 2 * r ∨ (2 * r = D ∧ q % 2 = 1)) := fun x => h (heq.2 x)
    simp only [h]
    simp only [Bool.false_eq_true, if_false]
    rw [e1, e2]
    omega

/-- Everything rounding can answer. With `k` the rounding exponent and `q` the rounded quotient: `q` is within half a step of the
exact value, even on a tie, at most 2^53, and at least 2^52 above the lowest binade; the answer is the finite value of `q * 2^k`
units, or the infinity where that is past the largest value. -/
theorem roundUnits_spec (neg : Bool) (n d : Nat) (hd : 0 < d) :
    ∃ q, 2 * n ≤ d * 2 ^ roundExponent n d * (2 * q + 1) ∧ d * 2 ^ roundExponent n d * (2 * q) ≤ 2 * n + d * 2 ^ roundExponent n d ∧
      (2 * n = d * 2 ^ roundExponent n d * (2 * q + 1) ∨
        d * 2 ^ roundExponent n d * (2 * q) = 2 * n + d * 2 ^ roundExponent n d → q % 2 = 0) ∧
      q ≤ 2 ^ 53 ∧ (roundExponent n d = 0 ∨ 2 ^ 52 ≤ q) ∧
      ((roundUnits neg n d = .inf neg ∧ (2045 < roundExponent n d ∨ (roundExponent n d = 2045 ∧ q = 2 ^ 53))) ∨
        (∃ m k, roundUnits neg n d = .fin neg m k ∧ Canonical (.fin neg m k) ∧ units m k = units q (roundExponent n d) ∧
          (m = q ∨ m = 2 ^ 52))) := by
  have hcan := roundUnits_canonical neg n d
  obtain ⟨hlt, hge⟩ := quotient_bounds n d
  have hD : 0 < d * 2 ^ roundExponent n d := Nat.mul_pos hd (Nat.two_pow_pos _)
  obtain ⟨h1, h2, h3⟩ := roundsUp_spec n _ hD
  have hq1 : (if roundsUp n (d * 2 ^ roundExponent n d) then n / (d * 2 ^ roundExponent n d) + 1
      else n / (d * 2 ^ roundExponent n d)) ≤ 2 ^ 53 := by split <;> omega
  have hq2 : roundExponent n d = 0 ∨ 2 ^ 52 ≤ (if roundsUp n (d * 2 ^ roundExponent n d) then n / (d * 2 ^ roundExponent n d) + 1
      else n / (d * 2 ^ roundExponent n d)) := by split <;> omega
  refine ⟨_, h1, h2, h3, hq1, hq2, ?_⟩
  simp only [roundUnits] at hcan ⊢
  generalize (if roundsUp n (d * 2 ^ roundExponent n d) then n / (d * 2 ^ roundExponent n d) + 1
      else n / (d * 2 ^ roundExponent n d)) = q at *
  generalize roundExponent n d = k at *
  simp only [roundFinish] at hcan ⊢
  by_cases hq : q = 2 ^ 53
  · subst hq
    simp only [if_true] at hcan ⊢
    by_cases hk : 2045 < k + 1
    · left
      rw [if_pos hk]
      rcases Nat.lt_or_ge 2045 k with h | h
      · exact ⟨rfl, Or.inl h⟩
      · exact ⟨rfl, Or.inr ⟨Nat.le_antisymm h (Nat.le_of_lt_succ hk), trivial⟩⟩
    · right
      rw [if_neg hk] at hcan ⊢
      refine ⟨_, _, rfl, hcan, ?_, Or.inr rfl⟩
      simp only [units, Nat.pow_succ]
      ring
  · simp only [if_neg hq] at hcan ⊢
    by_cases hk : 2045 < k
    · left
      rw [if_pos hk]
      exact ⟨rfl, Or.inl hk⟩
    · right
      rw [if_neg hk] at hcan ⊢
      exact ⟨_, _, rfl, hcan, rfl, Or.inl rfl⟩

theorem roundUnits_ne_nan (neg : Bool) (n d : Nat) (hd : 0 < d) : roundUnits neg n d ≠ .nan := by
  obtain ⟨q, -, -, -, -, -, ⟨h, -⟩ | ⟨m, k, h, -⟩⟩ := roundUnits_spec neg n d hd <;> rw [h] <;> simp

/-- The product of two finite values is never NaN. -/
theorem fmul_fin_ne_nan (s t : Bool) (m k m' k' : Nat) : fmul (.fin s m k) (.fin t m' k') ≠ .nan :=
  roundUnits_ne_nan _ _ _ oneUnits_pos

/-- A sum whose exact value has a significand of at most 53 bits is exact. -/
theorem orderKey_fadd_exact (s t : Bool) (m k m' k' M K : Nat) (neg : Bool) (hM : M < 2 ^ 53) (hK : K ≤ 2045)
    (h : signed s (units m k) + signed t (units m' k') = signed neg (units M K)) :
    orderKey (fadd (.fin s m k) (.fin t m' k')) = some (signed neg (units M K)) := by
  simp only [fadd, addFinite, h]
  by_cases hz : signed neg (units M K) = 0
  · rw [if_pos hz, hz]
    cases hst : (s && t) <;> simp [orderKey, signed, units]
  · rw [if_neg hz]
    obtain ⟨m', k', hr, -, hu⟩ := orderKey_roundUnits neg M K 1 Nat.one_pos hM hK
    rw [Nat.mul_one] at hr
    have hneg : decide (signed neg (units M K) < 0) = neg := by
      cases neg <;> simp only [signed, Bool.false_eq_true, if_true, if_false] at hz ⊢
      · exact decide_eq_false (by omega)
      · exact decide_eq_true (by omega)
    have habs : (signed neg (units M K)).natAbs = units M K := by
      cases neg <;> simp [signed]
    rw [hneg, habs, hr]
    simp only [orderKey, hu]

end Sys2Proof.Machine
end

