-- ==== Sys2Proof/Laws/Run.lean ====
section
/-! SUPPORT. Serving a list of events: one event at a time, and two lists one after the other. -/

namespace Sys2Proof.Machine

theorem serveAll_cons (s : State) (e : HostEvent) (es : List HostEvent) :
    ∃ t, serve e s = .next t ∧ serveAll s (e :: es) = ((serveAll t es).1, t.rsp.toList ++ (serveAll t es).2) := by
  obtain ⟨t, ht, -⟩ := serve_next e s
  exact ⟨t, ht, by simp only [serveAll, ht]⟩

/-- The second list is served on the state the first one left. -/
theorem serveAll_append (s : State) (a b : List HostEvent) :
    serveAll s (a ++ b) =
      ((serveAll (serveAll s a).1 b).1, (serveAll s a).2 ++ (serveAll (serveAll s a).1 b).2) := by
  induction a generalizing s with
  | nil => simp [serveAll]
  | cons e a ih =>
    obtain ⟨t, ht, h⟩ := serveAll_cons s e a
    obtain ⟨t', ht', h'⟩ := serveAll_cons s e (a ++ b)
    rw [ht] at ht'
    cases ht'
    rw [List.cons_append, h', h, ih]
    simp

/-- No list of events changes the settings or the events still to come. -/
theorem serveAll_settings (s : State) (es : List HostEvent) :
    (serveAll s es).1.settings = s.settings ∧ (serveAll s es).1.inputs = s.inputs := by
  induction es generalizing s with
  | nil => exact ⟨rfl, rfl⟩
  | cons e es ih =>
    obtain ⟨t, ht, h1, h2⟩ := serve_next e s
    simp only [serveAll, ht]
    exact ⟨(ih t).1.trans h1, (ih t).2.trans h2⟩

end Sys2Proof.Machine
end

