-- ==== Sys2Proof/Laws/Table.lean ====
section
/-! SUPPORT. Region selection, said once: what the selected index is, and which boundaries are at or below a value; and what the
checks of a build accept. -/

namespace Sys2Proof.Machine

theorem boundaries_length (t : Table) : (boundaries t).length + 1 = nreg t := by simp [boundaries, nreg]

/-- The boundaries before the selected region are at or below `v`; the next one, if any, is not (R125). -/
theorem select_spec (t : Table) (v : Fp) :
    select t v ≤ (boundaries t).length ∧ (∀ b ∈ (boundaries t).take (select t v), fge v (unpack b) = true) ∧
      ∀ b, (boundaries t)[select t v]? = some b → fge v (unpack b) = false := by
  obtain ⟨n, h, hle, h1, h2⟩ := selectLoop_spec v (boundaries t) 0
  have : select t v = n := by rw [select, h, Nat.zero_add]
  rw [this]
  exact ⟨hle, h1, h2⟩

theorem tableWellFormed_parts {t : Table} (h : tableWellFormed t = true) :
    (∀ b ∈ boundaries t, isFinite b = true) ∧ (boundaries t).Pairwise (fun a b => flt (unpack a) (unpack b) = true) ∧
      ∀ c ∈ records t, coeffsFinite c = true := by
  simp only [tableWellFormed, Bool.and_eq_true, List.all_eq_true] at h
  exact ⟨h.1.1, increasing_pairwise _ h.1.2, h.2⟩

/-- In a well-formed table, boundary `i` is at or below `v` exactly when it stands before the selected region. -/
theorem fge_boundary_iff {t : Table} (hw : tableWellFormed t = true) (v : Fp) (i : Nat) (b : F64)
    (hb : (boundaries t)[i]? = some b) : fge v (unpack b) = true ↔ i < select t v := by
  obtain ⟨hle, h1, h2⟩ := select_spec t v
  obtain ⟨-, hp, -⟩ := tableWellFormed_parts hw
  obtain ⟨hi, hbi⟩ := List.getElem?_eq_some_iff.1 hb
  constructor
  · intro hge
    by_contra hlt
    have hn : select t v < (boundaries t).length := by omega
    have h3 := h2 _ (List.getElem?_eq_getElem hn)
    rcases Nat.lt_or_eq_of_le (Nat.le_of_not_lt hlt) with h | h
    · have hlow := List.pairwise_iff_getElem.1 hp _ i hn hi h
      rw [hbi] at hlow
      rw [fge_of_flt hge hlow] at h3
      cases h3
    · have : (boundaries t)[select t v] = b := by simp only [h, hbi]
      rw [this, hge] at h3
      cases h3
  · intro hlt
    apply h1
    rw [List.mem_take_iff_getElem]
    exact ⟨i, by omega, hbi⟩

/-- Everything the legality of settings says (R30, R185). -/
theorem settings_legal_iff (c : Settings) :
    c.legal = true ↔ alphaLegal c.alpha = true ∧ tableKWellFormed c.store.coeffK = true ∧ isFinite c.store.scaleT = true ∧
      coeffTLegal c.store.coeffT = true := by
  simp only [Settings.legal, settingsError]
  cases alphaLegal c.alpha <;> cases tableKWellFormed c.store.coeffK <;> cases isFinite c.store.scaleT <;>
    cases coeffTLegal c.store.coeffT <;> simp

theorem coeffTLegal_iff (o : Option Table) : coeffTLegal o = true ↔ ∀ t, o = some t → tableWellFormed t = true := by
  cases o <;> simp [coeffTLegal]

/-- Everything the checks of a build can answer with an instance's settings. -/
theorem checkParams_ok_iff (p : Params) (c : Settings) :
    checkParams p = .ok c ↔ ∃ k, p.coeffK = some k ∧ c = ⟨p.alpha, ⟨p.scaleT, k, p.coeffT⟩⟩ ∧ c.legal = true := by
  obtain ⟨alpha, scaleT, _ | k, coeffT⟩ := p
  · simp only [checkParams]
    split <;> simp
  · simp only [checkParams, Settings.legal, Option.some.injEq, exists_eq_left']
    constructor
    · intro h
      split at h
      · cases h
      · next hn => cases h; exact ⟨rfl, by simp [hn]⟩
    · rintro ⟨rfl, h⟩
      rw [Option.isNone_iff_eq_none.1 h]

end Sys2Proof.Machine
end

