-- ==== Sys2Proof/Tests/Slice0.lean ====
section
/-! SUPPORT. Tests of the model on small states, the well-formedness smoke tests, and a witness for the hypotheses of each
statement. Expected results are the spec's own words and vectors (spec/95_test_vectors.md), never the model's output. -/

namespace Sys2Proof.Tests

open Machine

set_option Elab.async false

/-! ### Small states -/

/-- The binary64 word of a decimal constant. -/
def lit (neg : Bool) (num den : Nat) : F64 := pack 0 (literal neg num den)

def zeros : Coeffs := Config.zeroCoeffs

/-- Regions 0 and 1 of the candidate type-K table (spec/42_linearizer.md section 5). -/
def candidateK0 : Coeffs :=
  { To := lit true 12147164 100000, Vo := lit true 41790858 10000000, p1 := lit false 36069513 1000000
    p2 := lit false 30722076 1000000, p3 := lit false 77913860 10000000, p4 := lit false 52593991 100000000
    q1 := lit false 93939547 100000000, q2 := lit false 27791285 100000000, q3 := lit false 25163349 1000000000 }

def candidateK1 : Coeffs :=
  { To := lit true 87935962 10000000, Vo := lit true 34489914 100000000, p1 := lit false 25678719 1000000
    p2 := lit true 49887904 100000000, p3 := lit true 44705222 100000000, p4 := lit true 44869203 1000000000
    q1 := lit false 23893439 100000000000, q2 := lit true 20397750 1000000000, q3 := lit true 18424107 10000000000 }

/-- A legal type-K table: the source's region with the candidate's coefficients, region 0 below it, zeros above it. -/
def tableK : Table := { first := candidateK0, rest := [⟨sourceRegionLower, candidateK1⟩, ⟨sourceRegionUpper, zeros⟩] }

/-- A type-T table of one region with a pole at v = 0: Vo = -1, q1 = -1; `p1` is given. -/
def poleT (p1 : F64) : Table := { first := { zeros with Vo := lit true 1 1, q1 := lit true 1 1, p1 := p1 }, rest := [] }

def half : F64 := 0x3FE0000000000000#64

/-- An instance with the given alpha and prev, the table above for K and none for T. -/
def st (alpha prev : F64) : State :=
  { prev := prev, alpha := alpha, store := ⟨lit false 5218 100000, tableK, none⟩, rsp := none, inputs := [] }

/-- The same instance with a type-T table. -/
def stT (t : Table) : State := { st half posZero with store := ⟨lit false 5218 100000, tableK, some t⟩ }

/-- The response and the value of prev that an outcome leaves. -/
def seen : Result → Option (Option Response × F64)
  | .next t => some (t.rsp, t.prev)
  | .fault _ => none
  | .refused _ => none

/-! ### Decoding: one word of each family, bit by bit from R61 and R62 -/

theorem test_decode_decodeInternal :
    decode (0x0#64 ++ 0x00000190#32 ++ 0b000000000000000000000#21 ++ 0b000#3 ++ 0b00000#5 ++ 0b000#3) =
      .ok (.decodeInternal 0x00000190#32) := by decide +kernel

theorem test_decode_decodeTc :
    decode (0x0#64 ++ 0x01900000#32 ++ 0b000000000000000000000#21 ++ 0b000#3 ++ 0b00000#5 ++ 0b001#3) =
      .ok (.decodeTc 0x01900000#32) := by decide +kernel

theorem test_decode_classify :
    decode (0x0#64 ++ 0x00010001#32 ++ 0b000000000000000000000#21 ++ 0b000#3 ++ 0b00000#5 ++ 0b010#3) =
      .ok (.classify 0x00010001#32) := by decide +kernel

theorem test_decode_correct :
    decode (0x0#64 ++ 0x01900000#32 ++ 0b000000000000000000000#21 ++ 0b101#3 ++ 0b00000#5 ++ 0b011#3) =
      .ok (.correct 0x01900000#32 0b101#3) := by decide +kernel

theorem test_decode_filter :
    decode (0x4024000000000000#64 ++ 0x00000000#32 ++ 0b000000000000000000000#21 ++ 0b000#3 ++ 0b00000#5 ++ 0b100#3) =
      .ok (.filter 0x4024000000000000#64) := by decide +kernel

/-- E1 to E3 of section 2.6: the reserved codes. -/
theorem test_decode_reserved :
    decode 0x00000000000000000190000000000005#128 = .error (.reservedOp 5#3) ∧
    decode 0x00000000000000000190000000000006#128 = .error (.reservedOp 6#3) ∧
    decode 0x00000000000000000190000000000007#128 = .error (.reservedOp 7#3) := by decide +kernel

/-- E4 and E6 of section 2.6: reserved bits and unread fields. -/
theorem test_decode_ignores :
    decode 0x000000000000000001900000FFFFF8F9#128 = .ok (.decodeTc 0x01900000#32) ∧
    decode 0x40240000000000000190000000000504#128 = .ok (.filter 0x4024000000000000#64) := by decide +kernel

/-- The rows of spec/opcode_table.json: the low three bits alone. -/
theorem test_decodeTableWord :
    decodeTableWord 128 0 = some (.decodeInternal 0) ∧ decodeTableWord 8 1 = some (.decodeTc 0) ∧
    decodeTableWord 128 2 = some (.classify 0) ∧ decodeTableWord 8 3 = some (.correct 0 0) ∧
    decodeTableWord 128 4 = some (.filter 0) ∧ decodeTableWord 8 7 = none := by decide +kernel

/-- R78: the notation of spec/95_test_vectors.md section 2. -/
theorem test_requestText :
    requestText (.correct 0x01900000#32 5#3) = "CORRECT 0x01900000, #5" ∧
    requestText (.filter 0x4039C762B6548FDB#64) = "FILTER 0x4039C762B6548FDB" := by decide +kernel

/-- P3 steps 2 and 5 in the notation of R78. -/
theorem test_eventText :
    eventText (.request 0x00000000000000000000019000000000#128) = some "DECODE_INTERNAL 0x00000190" ∧
    eventText .reset = some "RESET" ∧ eventText (.request 5#128) = none := by decide +kernel

/-! ### Well-formedness: a term for each check, which the check refuses -/

theorem smoke_tableK_legal : (⟨half, (st half 0).store⟩ : Settings).legal = true := by decide +kernel

/-- Build-time vectors of section 2.5: 1.5, the number above 1.0, -1e-300, NaN, +infinity. -/
theorem smoke_alpha_refused :
    alphaLegal 0x3FF8000000000000#64 = false ∧ alphaLegal 0x3FF0000000000001#64 = false ∧
    alphaLegal 0x81A56E1FC2F8F359#64 = false ∧ alphaLegal 0x7FF8000000000000#64 = false ∧
    alphaLegal 0x7FF0000000000000#64 = false := by decide +kernel

/-- Build-time vectors of section 2.5: 0.0, 0.5, 1.0 and -0.0. -/
theorem smoke_alpha_accepted :
    alphaLegal 0#64 = true ∧ alphaLegal half = true ∧ alphaLegal 0x3FF0000000000000#64 = true ∧
    alphaLegal 0x8000000000000000#64 = true := by decide +kernel

theorem smoke_boundary_not_finite :
    Table.wellFormed { first := zeros, rest := [⟨0x7FF0000000000000#64, zeros⟩] } = false := by decide +kernel

theorem smoke_boundaries_not_increasing :
    Table.wellFormed { first := zeros, rest := [⟨half, zeros⟩, ⟨half, zeros⟩] } = false := by decide +kernel

theorem smoke_coefficient_not_finite :
    Table.wellFormed { first := { zeros with q3 := 0x7FF8000000000000#64 }, rest := [] } = false := by decide +kernel

theorem smoke_source_region_missing :
    Table.wellFormed { first := zeros, rest := [⟨sourceRegionLower, zeros⟩] } = true ∧
    Table.wellFormedK { first := zeros, rest := [⟨sourceRegionLower, zeros⟩] } = false := by decide +kernel

theorem smoke_typeT_refused :
    settingsError ⟨half, ⟨0x7FF0000000000000#64, tableK, some (poleT 0)⟩⟩ = some .scaleTNotFinite ∧
    settingsError ⟨half, ⟨half, tableK, some { first := { zeros with To := 0x7FF0000000000000#64 }, rest := [] }⟩⟩ =
      some .coeffTIllFormed ∧
    settingsError ⟨half, ⟨half, tableK, none⟩⟩ = none := by decide +kernel

/-- R30: SCALE(T) is finite without COEFF(T) too (log entry 9). -/
theorem smoke_scaleT_not_finite :
    settingsError ⟨half, ⟨0x7FF0000000000000#64, tableK, none⟩⟩ = some .scaleTNotFinite ∧
    settingsError ⟨half, ⟨0x7FF8000000000000#64, tableK, none⟩⟩ = some .scaleTNotFinite := by decide +kernel

theorem smoke_build_refused :
    build ⟨0x3FF8000000000000#64, 0, none, none⟩ = .error .invalidFilterParameter ∧
    build ⟨half, 0, none, none⟩ = .error .coeffKAbsent ∧
    build ⟨half, 0, some (poleT 0), none⟩ = .error .coeffKIllFormed := by decide +kernel

/-! ### Constants and arithmetic -/

/-- R121, and the boundaries as binary64 words. -/
theorem test_constants :
    scaleK = 0x3FA52220BC382A13#64 ∧ sourceRegionLower = 0xC00C6E978D4FDF3B#64 ∧
    sourceRegionUpper = 0x4010624DD2F1A9FC#64 := by decide +kernel

/-- Candidate constants of section 2.3, and L3: a product that rounds. -/
theorem test_literal_and_product :
    lit false 5218 100000 = 0x3FAAB7564302B40F#64 ∧ lit false 38748 1000000 = 0x3FA3D6C7219220FF#64 ∧
    pack 0 (voltage 0xFAA00000#32 scaleK) = 0xC00C65DBFCEB788A#64 := by decide +kernel

/-! ### The operations, against the vectors of section 2 -/

/-- T11 and T14. -/
theorem test_decodeInternal :
    seen (exec (.decodeInternal 0x00000190#32) (st half 7)) = some (some (.ok 0x3FF9000000000000#64), 7) ∧
    seen (exec (.decodeInternal 0x00008000#32) (st half 7)) = some (some (.ok 0xC060000000000000#64), 7) := by decide +kernel

/-- T18: every other bit set. -/
theorem test_decodeInternal_ones :
    seen (exec (.decodeInternal 0xFFFFFFFF#32) (st half 7)) = some (some (.ok 0xBFB0000000000000#64), 7) := by decide +kernel

/-- T6 and T8. -/
theorem test_decodeTc :
    seen (exec (.decodeTc 0x80000000#32) (st half 7)) = some (some (.ok 0xC0A0000000000000#64), 7) ∧
    seen (exec (.decodeTc 0xF0600000#32) (st half 7)) = some (some (.ok 0xC06F400000000000#64), 7) := by decide +kernel

/-- T9: the lower bits are ignored. -/
theorem test_decodeTc_low_bits :
    seen (exec (.decodeTc 0x0003FFFF#32) (st half 7)) = some (some (.ok 0#64), 7) := by decide +kernel

/-- Section 2.2: the rows a reader of the losing layouts of C1 and C2 would get wrong. -/
theorem test_classify :
    seen (exec (.classify 0x00010004#32) (st half 7)) = some (some (.ok 4#64), 7) ∧
    seen (exec (.classify 0x00020001#32) (st half 7)) = some (some (.ok 0#64), 7) := by decide +kernel

/-- Section 2.2: bit 3 is ignored. -/
theorem test_classify_bit3 :
    seen (exec (.classify 0x0001000B#32) (st half 7)) = some (some (.ok 3#64), 7) := by decide +kernel

/-- L5, with the candidate's region 1. -/
theorem test_correct_L5 :
    seen (exec (.correct 0x01900000#32 0) (st half 7)) = some (some (.ok 0x4039C762B6548FDB#64), 7) := by decide +kernel

/-- L20, just below the boundary, with the candidate's region 0; E7: an unsupported type. -/
theorem test_correct_L20_E7 :
    seen (exec (.correct 0xFA9C0000#32 0) (st half 7)) = some (some (.ok 0xC0590D15173C0715#64), 7) ∧
    seen (exec (.correct 0x01900000#32 5) (st half 7)) = some (some (.error .unsupportedThermocoupleType), 7) := by
  decide +kernel

/-- F8: rounding moves a constant stream; F13: the signed-zero corner. -/
theorem test_filter_F8_F13 :
    seen (exec (.filter 0x4008000000000000#64) (st 0x3FD3333333333333#64 0x4008000000000000#64)) =
      some (some (.ok 0x4007FFFFFFFFFFFF#64), 0x4007FFFFFFFFFFFF#64) ∧
    seen (exec (.filter 0x8000000000000000#64) (st 0 0x8000000000000000#64)) =
      some (some (.ok 0x8000000000000000#64), 0x8000000000000000#64) := by decide +kernel

/-- F22: no intermediate overflow; F19: an infinite input. -/
theorem test_filter_F22_F19 :
    seen (exec (.filter 0x7FE1CCF385EBC8A0#64) (st half 0x7FE1CCF385EBC8A0#64)) =
      some (some (.ok 0x7FE1CCF385EBC8A0#64), 0x7FE1CCF385EBC8A0#64) ∧
    seen (exec (.filter 0x7FF0000000000000#64) (st half 0)) =
      some (some (.ok 0x7FF0000000000000#64), 0x7FF0000000000000#64) := by decide +kernel

/-- P3 step 5: a reset writes +0.0 and answers nothing. -/
theorem test_reset_event : seen (step { st half 7 with inputs := [.reset] }) = some (none, 0) := by decide +kernel

/-- P4 step 3: a reserved op is answered and changes nothing. -/
theorem test_reserved_op :
    seen (step ((st half 7).withFetchWord 128 7)) = some (some (.error .illegalOperation), 7) := by decide +kernel

/-- Each row of the table runs as the first request after reset, whatever the built settings are. -/
def answersFirst (w : Nat) : Bool :=
  match step (State.reset.withFetchWord 128 w) with
  | .next t => t.rsp.isSome
  | .fault _ => false
  | .refused _ => false

theorem test_first_after_reset :
    answersFirst 0 = true ∧ answersFirst 1 = true ∧ answersFirst 2 = true ∧ answersFirst 3 = true ∧ answersFirst 4 = true := by
  decide +kernel

/-! ### Witnesses: concrete states and operands that meet the hypotheses of each statement -/

theorem witness_wellFormed : Instr.wellFormed (.correct 0x01900000#32 7#3) = true := rfl

theorem witness_reserved_not_decoded : ∀ i, decode 5#128 ≠ .ok i := by
  have h : decode 5#128 = .error (.reservedOp 5#3) := by decide +kernel
  intro i; rw [h]; simp

theorem witness_decode_ops :
    (⟨0b000, 1, 2, 3⟩ : Request).op = 0b000#3 ∧ (⟨0b001, 1, 2, 3⟩ : Request).op = 0b001#3 ∧
    (⟨0b010, 1, 2, 3⟩ : Request).op = 0b010#3 ∧ (⟨0b011, 1, 2, 3⟩ : Request).op = 0b011#3 ∧
    (⟨0b100, 1, 2, 3⟩ : Request).op = 0b100#3 ∧ (⟨0b111, 1, 2, 3⟩ : Request).op = 0b111#3 := by decide

/-- Two requests that differ in every field their operation does not read. -/
theorem witness_unread_fields :
    ((⟨0b001, 1, 0, 0⟩ : Request).op = (⟨0b001, 1, 7, 9⟩ : Request).op ∧ (⟨0b001, 1, 0, 0⟩ : Request).frame = 1) ∧
    ((⟨0b011, 1, 5, 0⟩ : Request).op = (⟨0b011, 1, 5, 9⟩ : Request).op ∧ (⟨0b011, 1, 5, 0⟩ : Request).tcType = 5) ∧
    ((⟨0b100, 0, 0, 9⟩ : Request).op = (⟨0b100, 1, 7, 9⟩ : Request).op ∧ (⟨0b100, 0, 0, 9⟩ : Request).x = 9) := by decide

theorem witness_internal_corners :
    (0x0000000F#32).extractLsb' 4 12 = 0x000#12 ∧ (0x00007FF0#32).extractLsb' 4 12 = 0x7FF#12 ∧
    (0x00008000#32).extractLsb' 4 12 = 0x800#12 ∧ (0xFFFFFFFF#32).extractLsb' 4 12 = 0xFFF#12 := by decide

theorem witness_tc_corners :
    (0x0003FFFF#32).extractLsb' 18 14 = 0x0000#14 ∧ (0x7FFC0000#32).extractLsb' 18 14 = 0x1FFF#14 ∧
    (0x80000000#32).extractLsb' 18 14 = 0x2000#14 ∧ (0xFFFFFFFF#32).extractLsb' 18 14 = 0x3FFF#14 := by decide

/-- The ends of both code ranges, as encoded fields. -/
theorem witness_encoded_codes :
    cjField 0x00008000#32 = encField 12 (-2048) ∧ cjField 0x00007FF0#32 = encField 12 2047 ∧
    tcField 0x80000000#32 = encField 14 (-8192) ∧ tcField 0x7FFC0000#32 = encField 14 8191 := by decide

theorem witness_monotone :
    sext (cjField 0x00008000#32) ≤ sext (cjField 0x00007FF0#32) ∧ sext (tcField 0x80000000#32) ≤ sext (tcField 0x7FFC0000#32) := by
  decide

theorem witness_sign_bits :
    ((0x80000000#32).extractLsb' 18 14).getLsbD 13 = true ∧ ((0x7FFC0000#32).extractLsb' 18 14).getLsbD 13 = false ∧
    ((0x00008000#32).extractLsb' 4 12).getLsbD 11 = true ∧ ((0x00007FF0#32).extractLsb' 4 12).getLsbD 11 = false := by decide

theorem witness_classify :
    (0xFFFEFFFF#32).getLsbD 16 = false ∧ (0x00010001#32).getLsbD 16 = true ∧
    (0x00010001#32).extractLsb' 0 3 = 0b001#3 ∧ (0x0001000A#32).extractLsb' 0 3 = 0b010#3 ∧
    (0x0001000B#32).extractLsb' 0 3 = 0b011#3 ∧ (0x00010000#32).extractLsb' 0 3 = 0b000#3 ∧
    (0x00010004#32).extractLsb' 0 3 = 0b100#3 ∧ (0x00010005#32).extractLsb' 0 3 = 0b101#3 ∧
    (0x00010006#32).extractLsb' 0 3 = 0b110#3 ∧ (0x00010007#32).extractLsb' 0 3 = 0b111#3 := by decide

theorem witness_bits_above {f g : Frame} (n : Nat) (h : f >>> n = g >>> n) : ∀ i, n ≤ i → f.getLsbD i = g.getLsbD i := by
  intro i hi
  have := congrArg (fun b : Frame => b.getLsbD (i - n)) h
  simpa [Nat.add_sub_cancel' hi] using this

/-- Frames that agree on the bits an operation reads and differ in others, the reserved bits 17 and 3 among them. -/
theorem witness_frame_bits :
    ((∀ i, 18 ≤ i → (0x01900000#32).getLsbD i = (0x0193FFFF#32).getLsbD i) ∧ 0x01900000#32 ≠ 0x0193FFFF#32) ∧
    ((∀ i, 4 ≤ i → i ≤ 15 → (0x00000190#32).getLsbD i = (0xFFFF019F#32).getLsbD i)) ∧
    ((0x00010001#32).getLsbD 16 = (0xFFFFFFF9#32).getLsbD 16 ∧
      ∀ i, i ≤ 2 → (0x00010001#32).getLsbD i = (0xFFFFFFF9#32).getLsbD i) := by
  refine ⟨⟨witness_bits_above 18 (by decide), by decide⟩, ?_, by decide, ?_⟩
  · intro i _ h2
    have : ∀ j : Fin 16, 4 ≤ j.val → (0x00000190#32).getLsbD j.val = (0xFFFF019F#32).getLsbD j.val := by decide
    exact this ⟨i, by omega⟩ ‹_›
  · intro i h
    have : ∀ j : Fin 3, (0x00010001#32).getLsbD j.val = (0xFFFFFFF9#32).getLsbD j.val := by decide
    exact this ⟨i, by omega⟩

theorem witness_storeEntry :
    storeEntry (st half 0).store 0b000#3 = some (scaleK, tableK) ∧
    storeEntry (stT (poleT 0)).store 0b001#3 = some (lit false 5218 100000, poleT 0) := by decide +kernel

theorem witness_type_codes :
    (stT (poleT 0)).store.coeffT = some (poleT 0) ∧ (st half 0).store.coeffT = none ∧ (0b010#3 : TcCode) ≠ 0b000#3 ∧
    (0b111#3 : TcCode) ≠ 0b001#3 := by decide +kernel

theorem witness_no_entry : storeEntry (st half 0).store 0b001#3 = none ∧ storeEntry (st half 0).store 0b111#3 = none := by
  decide +kernel

theorem witness_ill_formed_params :
    (Params.coeffK ⟨half, 0, some (poleT 0), none⟩ = some (poleT 0) ∧ tableKWellFormed (poleT 0) = false) ∧
    (Params.coeffT ⟨half, 0, some tableK, some ⟨zeros, [⟨half, zeros⟩, ⟨half, zeros⟩]⟩⟩ =
        some ⟨zeros, [⟨half, zeros⟩, ⟨half, zeros⟩]⟩ ∧
      tableWellFormed ⟨zeros, [⟨half, zeros⟩, ⟨half, zeros⟩]⟩ = false) := by decide +kernel

theorem witness_op_fields :
    (0x000000000000000001900000FFFFF8F8#128).extractLsb' 0 3 = 0b000#3 ∧
    (0x000000000000000001900000FFFFF8F9#128).extractLsb' 0 3 = 0b001#3 ∧
    (0x000000000000000001900000FFFFF8FA#128).extractLsb' 0 3 = 0b010#3 ∧
    (0x40240000000000000190000000000504#128).extractLsb' 0 3 = 0b100#3 := by decide

theorem witness_non_finite_operand : isFinite 0xFFF0000000000000#64 = false ∧ isFinite 0x7FF8000000000000#64 = false := by
  decide +kernel

/-- The key of 0.1, and that its difference from 1.0 rounds. -/
theorem witness_tenth_rounds :
    ∃ z, orderKey (unpack 0x3FB999999999999A#64) = some z ∧
      orderKey (fsub one (unpack 0x3FB999999999999A#64)) ≠ some (oneUnits - z) :=
  ⟨_, rfl, by decide +kernel⟩

theorem witness_unsupported :
    2 ≤ (0b010#3 : TcCode).toNat ∧ 2 ≤ (0b111#3 : TcCode).toNat ∧
    ((0b001#3 : TcCode).toNat = 1 ∧ (st half 0).store.coeffT = none) := by decide +kernel

/-- A request that raises UnsupportedThermocoupleType (E7), and what it leaves. -/
theorem witness_unsupported_request :
    serveRequest 0x00000000000000000190000000000503#128 (st half 7) =
      .next ((st half 7).withRsp (some (.error .unsupportedThermocoupleType))) := by rfl

/-- A request that raises IllegalOperation (E3), and what it leaves. -/
theorem witness_illegal_request :
    serveRequest 0x00000000000000000190000000000007#128 (st half 7) =
      .next ((st half 7).withRsp (some (.error .illegalOperation))) := by rfl

theorem witness_reserved_ops :
    (5#128).extractLsb' 0 3 = 0b101#3 ∧ (6#128).extractLsb' 0 3 = 0b110#3 ∧ (7#128).extractLsb' 0 3 = 0b111#3 := by decide

theorem witness_table_wellFormed : tableWellFormed tableK = true ∧ tableKWellFormed tableK = true := by decide +kernel

theorem witness_boundary : (boundaries tableK)[0]? = some sourceRegionLower ∧ (boundaries tableK)[1]? = some sourceRegionUpper := by
  decide +kernel

theorem forall_of_all {p : F64 → Bool} {bs : List F64} (h : bs.all p = true) : ∀ b ∈ bs, p b = true :=
  List.all_eq_true.mp h

theorem forall_of_all_not {p : F64 → Bool} {bs : List F64} (h : bs.all (fun b => !p b) = true) : ∀ b ∈ bs, p b = false := by
  intro b hb
  simpa using List.all_eq_true.mp h b hb

/-- Values below every boundary, and on the last one. -/
theorem witness_outside_boundaries :
    (∀ b ∈ boundaries tableK, fge (unpack 0xC01D000000000000#64) (unpack b) = false) ∧
    (∀ b ∈ boundaries tableK, fge (unpack sourceRegionUpper) (unpack b) = true) :=
  ⟨forall_of_all_not (by decide +kernel), forall_of_all (by decide +kernel)⟩

/-- Voltages below every boundary and above every one, from frames (L16 and L15). -/
theorem witness_outside_voltages :
    (∀ b ∈ boundaries tableK, fge (voltage 0x80000000#32 scaleK) (unpack b) = false) ∧
    (∀ b ∈ boundaries tableK, fge (voltage 0x7FFC0000#32 scaleK) (unpack b) = true) :=
  ⟨forall_of_all_not (by decide +kernel), forall_of_all (by decide +kernel)⟩

theorem witness_selection : unpack half ≠ .nan ∧ isFinite scaleK = true := by decide +kernel

theorem witness_code_100 : tcCode 0x01900000#32 = 100 := by decide +kernel

theorem witness_voltage_signs : tcCode 0x00000000#32 = 0 ∧ tcCode 0xFFFC0000#32 < 0 ∧ 0 < tcCode 0x00040000#32 := by decide +kernel

/-- A zero denominator at v = 0, with a numerator that is 1.0 and one that is zero. -/
theorem witness_pole (p1 : F64) (hp : p1 = 0x3FF0000000000000#64 ∨ p1 = 0#64) :
    let table := poleT p1
    let scale := lit false 5218 100000
    let v := voltage 0 scale
    let r := lutSelected table v
    let dV := fsub v (unpack r.Vo)
    storeEntry (stT table).store 0b001#3 = some (scale, table) ∧ isFinite r.To = true ∧
      fadd one (fmul dV (fadd (unpack r.q1) (fmul dV (fadd (unpack r.q2) (fmul dV (unpack r.q3)))))) = .fin false 0 0 ∧
      fmul dV (fadd (unpack r.p1) (fmul dV (fadd (unpack r.p2) (fmul dV (fadd (unpack r.p3) (fmul dV (unpack r.p4))))))) =
        unpack p1 := by
  rcases hp with rfl | rfl <;> decide +kernel

theorem witness_filter_examples :
    (st 0x3FD3333333333333#64 0x4008000000000000#64).prev = 0x4008000000000000#64 ∧ (st half posZero).prev = posZero := by
  decide +kernel

/-- alpha = 0.5 and alpha = 1.0 are in the range where 1 - alpha is exact. -/
theorem witness_weight_range :
    orderKey (unpack half) = some (2 ^ 1073 : Nat) ∧ (oneUnits : Int) ≤ 2 * ((2 ^ 1073 : Nat) : Int) ∧
    ((2 ^ 1073 : Nat) : Int) ≤ oneUnits ∧ orderKey (unpack 0x3FF0000000000000#64) = some (oneUnits : Int) := by decide +kernel

theorem witness_alpha_zero :
    (st posZero half).alpha = posZero ∧ isFinite (st posZero half).prev = true ∧ isFinite half = true ∧
    half ≠ 0x8000000000000000#64 ∧ isFinite (st posZero 0x7FF0000000000000#64).prev = false := by decide +kernel

theorem witness_alpha_one :
    (st 0x3FF0000000000000#64 half).alpha = 0x3FF0000000000000#64 ∧ isFinite 0x7E37E43C8800759C#64 = true ∧
    isNan (st 0x3FF0000000000000#64 half).prev = false ∧ half ≠ 0x8000000000000000#64 ∧
    isFinite 0x7FF0000000000000#64 = false ∧ (∀ x ∈ [half, 0xC014000000000000#64], isFinite x = true) :=
  ⟨by decide +kernel, by decide +kernel, by decide +kernel, by decide +kernel, by decide +kernel,
    forall_of_all (by decide +kernel)⟩

/-- A NaN operand, and the step it leaves. -/
theorem witness_nan_operand :
    isNan 0x7FF8000000000000#64 = true ∧
    ∃ t, exec (.filter 0x7FF8000000000000#64) (st half 7) = .next t := ⟨by decide +kernel, _, rfl⟩

/-- Opposite infinities, one after the other, on a legal alpha. -/
theorem witness_opposite_infinities :
    alphaLegal (st half 7).alpha = true ∧
    ∃ t u, exec (.filter (packFields false 2047 0)) (st half 7) = .next t ∧
      exec (.filter (packFields true 2047 0)) t = .next u := ⟨by decide +kernel, _, _, rfl, rfl⟩

/-- A NaN prev, and events without a reset. -/
theorem witness_nan_prev :
    isNan (st half 0x7FF8000000000000#64).prev = true ∧
    (∀ e ∈ [HostEvent.request 4#128, HostEvent.request 0#128], HostEvent.isReset e = false) ∧
    decode 4#128 = .ok (.filter 0) ∧ HostEvent.isReset .reset = true ∧ HostEvent.isReset (.requestCutByReset 4#128) = true := by
  decide +kernel

theorem witness_reset_next : serve .reset (st half 7) = .next (((st half 7).withPrev posZero).withRsp none) := rfl

theorem witness_build_ok :
    build ⟨half, 0, some tableK, none⟩ = .ok (State.powerOn ⟨half, ⟨0, tableK, none⟩⟩) := by decide +kernel

theorem witness_scaleT_not_finite :
    alphaLegal half = true ∧ Params.coeffK ⟨half, 0x7FF8000000000000#64, some tableK, none⟩ = some tableK ∧
    tableKWellFormed tableK = true ∧ isFinite 0x7FF8000000000000#64 = false := by decide +kernel

theorem witness_build_with_T :
    isFinite half = true ∧ tableWellFormed (poleT 0) = true ∧
    build ⟨half, half, some tableK, some (poleT 0)⟩ = .ok (State.powerOn ⟨half, ⟨half, tableK, some (poleT 0)⟩⟩) := by
  decide +kernel

theorem witness_alpha_illegal : alphaLegal (Params.alpha ⟨0x3FF8000000000000#64, 0, none, none⟩) = false := by decide +kernel

theorem witness_pending_events :
    ({ st half 7 with inputs := [.reset, .request 0#128] } : State).inputs = .reset :: [.request 0#128] ∧
    decode 0#128 = .ok (.decodeInternal 0) ∧ decodeTableWord 8 4 = some (.filter 0) := by decide +kernel

theorem witness_not_filter : ∀ x, Instr.decodeTc 0x01900000#32 ≠ .filter x := by intro x; simp

/-- A step that changes prev through FILTER (F1), and one that changes it through a reset. -/
theorem witness_prev_changes :
    seen (step ((st half 0).withFetchWord 128 0x40240000000000000000000000000004)) =
      some (some (.ok 0x4014000000000000#64), 0x4014000000000000#64) ∧
    seen (step { st half 7 with inputs := [.reset] }) = some (none, 0) := by decide +kernel

/-- A state that meets the invariant and has an event to serve. -/
theorem witness_inv : ({ st half 7 with inputs := [.request 4#128] } : State).Inv :=
  have hp : isNan (st half 7).prev = false := by decide +kernel
  ⟨smoke_tableK_legal, fun h => absurd (hp.symm.trans h) (by decide), by intro b h; cases h⟩

theorem witness_rounding : 0 < 3 ∧ Canonical (.fin false (2 ^ 52) 1022) ∧ roundUnits false 7 2 = .fin false 4 0 := by
  refine ⟨by decide, ⟨by omega, by omega, Or.inr (by omega)⟩, by decide +kernel⟩

theorem witness_words : isNan half = false ∧ Canonical (.fin true 1 0) :=
  ⟨by decide +kernel, by omega, by omega, Or.inl rfl⟩

end Sys2Proof.Tests
end

section
/-! PROOFS. Who reads and who writes the smoother register `prev` (spec/10_state.md R25). -/

namespace Sys2Proof.Machine

theorem step_of_inputs_nil {s : State} (h : s.inputs = []) : step s = .next s := by
  simp only [step, h]

theorem step_of_inputs_cons {s : State} {e : HostEvent} {rest : List HostEvent} (h : s.inputs = e :: rest) :
    step s = serve e (s.withInputs rest) := by
  simp only [step, h]

/-- Writing back the value that `prev` holds changes nothing. -/
@[simp] theorem withPrev_self (s : State) : s.withPrev s.prev = s := rfl

/-- An event with a FILTER operand is a request whose word decodes to that FILTER. -/
theorem request_of_filterOperand {e : HostEvent} {x : F64} (h : filterOperand e = some x) :
    ∃ w, e = .request w ∧ decode w = .ok (.filter x) := by
  cases e with
  | reset => cases h
  | requestCutByReset w => cases h
  | request w =>
    refine ⟨w, rfl, ?_⟩
    simp only [filterOperand] at h
    split at h
    · next y hy => cases h; exact hy
    · cases h

/-- An operation that is not FILTER has one response for all values of `prev`, and only drives the response port: CORRECT looks up
the store and computes from the frame, the others compute from the frame alone. -/
theorem exec_withPrev_of_ne_filter {i : Instr} (hi : ∀ x, i ≠ .filter x) (s : State) :
    ∃ r, ∀ v, exec i (s.withPrev v) = .next ((s.withPrev v).withRsp (some r)) := by
  cases i with
  | decodeInternal frame => exact ⟨_, fun _ => rfl⟩
  | decodeTc frame => exact ⟨_, fun _ => rfl⟩
  | classify frame => exact ⟨_, fun _ => rfl⟩
  | correct frame tcType =>
    simp only [exec, execCorrect, withPrev_store]
    cases storeEntry s.store tcType with
    | none => exact ⟨_, fun _ => rfl⟩
    | some entry => exact ⟨_, fun _ => rfl⟩
  | filter x => exact absurd rfl (hi x)

theorem exec_keeps_prev_of_ne_filter {i : Instr} (hi : ∀ x, i ≠ .filter x) {s t : State} (h : exec i s = .next t) :
    t.prev = s.prev := by
  rcases exec_cases i s with ⟨r, hs, -⟩ | ⟨x, hx, -⟩
  · cases hs.symm.trans h
    exact withRsp_prev s _
  · exact absurd hx (hi x)

/-- An event that changes `prev` is a FILTER request, which answers the new value, or a reset, which writes +0.0. -/
theorem serve_changes_prev {e : HostEvent} {s t : State} (h : serve e s = .next t) (hne : t.prev ≠ s.prev) :
    (∃ x, filterOperand e = some x ∧ t.rsp = some (.ok t.prev)) ∨ (HostEvent.isReset e = true ∧ t.prev = posZero) := by
  rcases serve_cases e s with ⟨r, -, -, hs⟩ | ⟨x, hx, -, hs⟩ | ⟨-, hreset, hs⟩
  all_goals cases hs.symm.trans h
  · exact absurd (withRsp_prev s _) hne
  · exact .inl ⟨x, hx, rfl⟩
  · exact .inr ⟨hreset, rfl⟩

/-- A step that changes `prev` serves such an event: the one at the head of `inputs`. -/
theorem step_changes_prev {s t : State} (h : step s = .next t) (hne : t.prev ≠ s.prev) :
    (∃ w x rest, s.inputs = .request w :: rest ∧ decode w = .ok (.filter x) ∧ t.rsp = some (.ok t.prev)) ∨
    (∃ e rest, s.inputs = e :: rest ∧ HostEvent.isReset e = true ∧ t.prev = posZero) := by
  cases hin : s.inputs with
  | nil =>
    cases (step_of_inputs_nil hin).symm.trans h
    exact absurd rfl hne
  | cons e rest =>
    rw [step_of_inputs_cons hin] at h
    rcases serve_changes_prev h hne with ⟨x, hx, hrsp⟩ | ⟨hreset, hprev⟩
    · obtain ⟨w, rfl, hw⟩ := request_of_filterOperand hx
      exact .inl ⟨w, x, rest, rfl, hw, hrsp⟩
    · exact .inr ⟨e, rest, rfl, hreset, hprev⟩

/-- Settles O46: an operation that is not FILTER has the same response for all values of `prev` and does not write it, and a step
that changes `prev` serves an event that is a FILTER request or a reset. -/
theorem onlyFilterUsesPrev : Obligations.OnlyFilterUsesPrev := by
  refine ⟨fun i s t hi h => exec_keeps_prev_of_ne_filter hi h, fun i s v hi => ?_, fun x s => ?_,
    fun s t h hne => step_changes_prev h hne⟩
  · obtain ⟨r, hr⟩ := exec_withPrev_of_ne_filter hi s
    have hs := hr s.prev
    rw [withPrev_self] at hs
    exact ⟨r, hs, hr v⟩
  · exact ⟨filterWord s.alpha s.prev x, rfl⟩

end Sys2Proof.Machine
end

section
/-! PROOFS. Events are served one at a time in the host's order (spec/20_memory.md R48), and the settings of what is built are
read-only (R44). -/

namespace Sys2Proof.Machine

@[simp] theorem withInputs_withInputs (s : State) (es fs : List HostEvent) :
    (s.withInputs es).withInputs fs = s.withInputs fs := rfl

theorem withInputs_eq_self {s : State} {es : List HostEvent} (h : s.inputs = es) : s.withInputs es = s := by
  subst h
  rfl

/-- No operation looks at the events still to come. -/
theorem exec_withInputs {i : Instr} {s t : State} (h : exec i s = .next t) (es : List HostEvent) :
    exec i (s.withInputs es) = .next (t.withInputs es) := by
  cases i with
  | decodeInternal frame => cases h; rfl
  | decodeTc frame => cases h; rfl
  | classify frame => cases h; rfl
  | correct frame tcType =>
    simp only [exec, execCorrect, withInputs_store] at h ⊢
    cases hentry : storeEntry s.store tcType with
    | none => rw [hentry] at h; cases h; rfl
    | some entry => rw [hentry] at h; cases h; rfl
  | filter x => cases h; rfl

/-- What an event does does not depend on the events after it. -/
theorem serve_withInputs {e : HostEvent} {s t : State} (h : serve e s = .next t) (es : List HostEvent) :
    serve e (s.withInputs es) = .next (t.withInputs es) := by
  cases e with
  | reset => cases h; rfl
  | requestCutByReset w => cases h; rfl
  | request w =>
    simp only [serve, serveRequest] at h ⊢
    cases hw : decode w with
    | error d => rw [hw] at h; cases h; rfl
    | ok i => rw [hw] at h; exact exec_withInputs h es

theorem run_succ_of_step {s t : State} (h : step s = .next t) (k : Nat) :
    Host.Core.run Sys2Proof.core (k + 1) s = Host.Core.run Sys2Proof.core k t := by
  have hcore : Sys2Proof.core.step s = .next t := h
  simp only [Host.Core.run, hcore]

/-- A run over pending events is `serveAll`: each step takes the head event off and serves it on the state the earlier ones left. -/
theorem run_withInputs (s : State) (es : List HostEvent) :
    Host.Core.run Sys2Proof.core es.length (s.withInputs es) = .next ((serveAll s es).1.withInputs []) := by
  induction es generalizing s with
  | nil => rfl
  | cons e es ih =>
    obtain ⟨t, ht, hall⟩ := serveAll_cons s e es
    have hstep : step (s.withInputs (e :: es)) = .next (t.withInputs es) :=
      (step_of_inputs_cons (withInputs_inputs s _)).trans (serve_withInputs ht es)
    rw [List.length_cons, run_succ_of_step hstep, ih t, hall]

theorem sameSettings_of_settings_eq {s t : State} (h : t.settings = s.settings) : SameSettings s t :=
  ⟨congrArg Settings.alpha h, congrArg Settings.store h⟩

theorem step_settings {s t : State} (h : step s = .next t) : t.settings = s.settings := by
  cases hin : s.inputs with
  | nil =>
    cases (step_of_inputs_nil hin).symm.trans h
    rfl
  | cons e rest =>
    obtain ⟨u, hu, hset, -⟩ := serve_next e (s.withInputs rest)
    cases ((step_of_inputs_cons hin).trans hu).symm.trans h
    exact hset

/-- A build that succeeds gives the power-on state of settings that the checks accept. -/
theorem build_ok_iff (p : Params) (s : State) :
    build p = .ok s ↔ ∃ c, checkParams p = .ok c ∧ s = State.powerOn c := by
  simp only [build]
  cases checkParams p with
  | error e => simp
  | ok c => simp [eq_comm]

/-- Settles O44, by induction on the pending events. -/
theorem runServesEventsInOrder : Obligations.RunServesEventsInOrder := by
  intro s es hin
  have hrun := run_withInputs s es
  rw [withInputs_eq_self hin] at hrun
  exact ⟨hrun, sameSettings_of_settings_eq (serveAll_settings s es).1⟩

/-- Settles O45: a build copies its parameters into the store, and no step writes the settings. -/
theorem settingsAreReadOnly : Obligations.SettingsAreReadOnly := by
  refine ⟨fun p s h => ?_, fun s t h => sameSettings_of_settings_eq (step_settings h)⟩
  obtain ⟨c, hc, rfl⟩ := (build_ok_iff p s).1 h
  obtain ⟨k, hk, rfl, -⟩ := (checkParams_ok_iff p c).1 hc
  exact ⟨rfl, hk, rfl⟩

end Sys2Proof.Machine
end

section
/-! PROOFS. The packed word and its record (spec/30_encoding.md R61), the operation that `op` alone selects (R62, R65), the fields
it reads (R64), and the response word (R75). -/

namespace Sys2Proof.Machine

/-! ### Where the fields stand in the packed word -/

theorem getLsbD_extractLsb'_of_lt {n len i : Nat} (b : BitVec n) (start : Nat) (hi : i < len) :
    (b.extractLsb' start len).getLsbD i = b.getLsbD (start + i) := by
  simp [hi]

theorem getLsbD_ofWord_op (w : RequestWord) {i : Nat} (hi : i < 3) : (Request.ofWord w).op.getLsbD i = w.getLsbD i :=
  (getLsbD_extractLsb'_of_lt w 0 hi).trans (by rw [Nat.zero_add])

theorem getLsbD_ofWord_tcType (w : RequestWord) {i : Nat} (hi : i < 3) :
    (Request.ofWord w).tcType.getLsbD i = w.getLsbD (8 + i) :=
  getLsbD_extractLsb'_of_lt w 8 hi

theorem getLsbD_ofWord_frame (w : RequestWord) {i : Nat} (hi : i < 32) :
    (Request.ofWord w).frame.getLsbD i = w.getLsbD (32 + i) :=
  getLsbD_extractLsb'_of_lt w 32 hi

theorem getLsbD_ofWord_x (w : RequestWord) {i : Nat} (hi : i < 64) : (Request.ofWord w).x.getLsbD i = w.getLsbD (64 + i) :=
  getLsbD_extractLsb'_of_lt w 64 hi

/-- A bit of a word with its reserved bits cleared. -/
theorem getLsbD_and_not_reservedMask (w : RequestWord) {i : Nat} (hi : i < 128) :
    (w &&& ~~~Request.reservedMask).getLsbD i =
      (w.getLsbD i && !(decide (3 ≤ i ∧ i < 8) || decide (11 ≤ i ∧ i < 32))) := by
  rw [BitVec.getLsbD_and, BitVec.getLsbD_not, getLsbD_reservedMask ⟨i, hi⟩, decide_eq_true hi, Bool.true_and]

/-- Reading a word's fields and packing them again clears its reserved bits and nothing else: `i` runs through the places of the
fields and of the two reserved ranges. -/
theorem toWord_ofWord (w : RequestWord) : (Request.ofWord w).toWord = w &&& ~~~Request.reservedMask := by
  apply BitVec.eq_of_getLsbD_eq
  intro i hi
  rw [getLsbD_toWord, getLsbD_and_not_reservedMask w hi]
  split_ifs with hop hlow htc hhigh hframe
  · rw [getLsbD_ofWord_op w hop]
    simp [show ¬ 3 ≤ i by omega, show ¬ 11 ≤ i by omega]
  · simp [show 3 ≤ i by omega, hlow]
  · rw [getLsbD_ofWord_tcType w (by omega), Nat.add_sub_cancel' (by omega)]
    simp [hlow, show ¬ 11 ≤ i by omega]
  · simp [show 11 ≤ i by omega, hhigh]
  · rw [getLsbD_ofWord_frame w (by omega), Nat.add_sub_cancel' (by omega)]
    simp [hlow, hhigh]
  · rw [getLsbD_ofWord_x w (by omega), Nat.add_sub_cancel' (by omega)]
    simp [hlow, hhigh]

/-! ### The operation that `op` selects -/

theorem decodeRequest_of_op_decodeInternal {r : Request} (h : r.op = 0b000#3) :
    decodeRequest r = .ok (.decodeInternal r.frame) := by
  simp [decodeRequest, h]

theorem decodeRequest_of_op_decodeTc {r : Request} (h : r.op = 0b001#3) : decodeRequest r = .ok (.decodeTc r.frame) := by
  simp [decodeRequest, h]

theorem decodeRequest_of_op_classify {r : Request} (h : r.op = 0b010#3) : decodeRequest r = .ok (.classify r.frame) := by
  simp [decodeRequest, h]

theorem decodeRequest_of_op_correct {r : Request} (h : r.op = 0b011#3) :
    decodeRequest r = .ok (.correct r.frame r.tcType) := by
  simp [decodeRequest, h]

theorem decodeRequest_of_op_filter {r : Request} (h : r.op = 0b100#3) : decodeRequest r = .ok (.filter r.x) := by
  simp [decodeRequest, h]

theorem decodeRequest_of_op_reserved {r : Request} (h : r.op = 0b101#3 ∨ r.op = 0b110#3 ∨ r.op = 0b111#3) :
    decodeRequest r = .error (.reservedOp r.op) := by
  rcases h with h | h | h <;> simp [decodeRequest, h]

/-! ### Serving a request word -/

theorem serveRequest_of_decode_error {w : RequestWord} {d : DecodeError} (h : decode w = .error d) (s : State) :
    serveRequest w s = raise .illegalOperation s := by
  simp only [serveRequest, h]

/-- A word acts only through the operation it decodes to. -/
theorem serveRequest_congr {w w' : RequestWord} (h : decode w = decode w') (s : State) :
    serveRequest w s = serveRequest w' s := by
  simp only [serveRequest, h]

/-- A packed record acts only through the operation the record selects. -/
theorem serveRequest_toWord_congr {r r' : Request} (h : decodeRequest r = decodeRequest r') (s : State) :
    serveRequest r.toWord s = serveRequest r'.toWord s :=
  serveRequest_congr (by rw [decode_toWord, decode_toWord, h]) s

/-- The reserved bits of a word do not matter to the block (R61). -/
theorem serveRequest_and_not_reservedMask (w : RequestWord) (s : State) :
    serveRequest w s = serveRequest (w &&& ~~~Request.reservedMask) s :=
  serveRequest_congr (by rw [decode, decode, ofWord_mask]) s

/-- Settles O4: the places of the fields bit by bit, `ofWord` and `toWord` inverse to each other up to the reserved bits, and a
request served through its fields alone. -/
theorem packedWordCarriesTheRecord : Obligations.PackedWordCarriesTheRecord := by
  refine ⟨fun w => ⟨fun _ hi => getLsbD_ofWord_op w hi, fun _ hi => getLsbD_ofWord_tcType w hi,
      fun _ hi => getLsbD_ofWord_frame w hi, fun _ hi => getLsbD_ofWord_x w hi⟩,
    fun i hi => ?_, fun r => ⟨ofWord_toWord r, toWord_reserved r⟩, toWord_ofWord, serveRequest_and_not_reservedMask⟩
  rw [getLsbD_reservedMask ⟨i, hi⟩]
  simp only [Nat.lt_succ_iff]

/-- Settles O5: two requests of one op that agree on the fields the op reads select the same operation. -/
theorem unreadFieldsDoNotMatter : Obligations.UnreadFieldsDoNotMatter := by
  intro r r' s hop
  refine ⟨fun h hframe => serveRequest_toWord_congr ?_ s, fun h hframe htc => serveRequest_toWord_congr ?_ s,
    fun h hx => serveRequest_toWord_congr ?_ s⟩
  · rcases h with h | h | h
    · rw [decodeRequest_of_op_decodeInternal h, decodeRequest_of_op_decodeInternal (hop ▸ h), hframe]
    · rw [decodeRequest_of_op_decodeTc h, decodeRequest_of_op_decodeTc (hop ▸ h), hframe]
    · rw [decodeRequest_of_op_classify h, decodeRequest_of_op_classify (hop ▸ h), hframe]
  · rw [decodeRequest_of_op_correct h, decodeRequest_of_op_correct (hop ▸ h), hframe, htc]
  · rw [decodeRequest_of_op_filter h, decodeRequest_of_op_filter (hop ▸ h), hx]

/-- Settles O3: one equation of the decoder per row of R62, and a word that selects no row is answered by `raise`. -/
theorem decodingIsTotalByOpAlone : Obligations.DecodingIsTotalByOpAlone := by
  refine ⟨fun _ => rfl, fun r => ⟨decodeRequest_of_op_decodeInternal, decodeRequest_of_op_decodeTc,
    decodeRequest_of_op_classify, decodeRequest_of_op_correct, decodeRequest_of_op_filter, decodeRequest_of_op_reserved⟩,
    fun w s hnone => ?_⟩
  cases hw : decode w with
  | ok i => exact absurd hw (hnone i)
  | error d => exact serveRequest_of_decode_error hw s

/-- Settles O33: a reserved op decodes to no operation, so the block raises IllegalOperation. -/
theorem reservedOpsAnswerIllegalOperation : Obligations.ReservedOpsAnswerIllegalOperation := by
  intro w s hop
  have hdecode : decode w = .error (.reservedOp (Request.ofWord w).op) := decodeRequest_of_op_reserved hop
  exact ⟨serveRequest_of_decode_error hdecode s, rfl⟩

/-- Settles O6: the response word is the status code above the result. -/
theorem responseWordHasStatusAndResult : Obligations.ResponseWordHasStatusAndResult := fun _ =>
  ⟨BitVec.extractLsb'_append_eq_left, BitVec.extractLsb'_append_eq_right⟩

end Sys2Proof.Machine
end

section
/-! PROOFS. The operand fields of a frame: their codes (spec/30_encoding.md R67, R68), the bits each operation reads (R70,
spec/42_linearizer.md R132), and the store entry of a type code (R72). -/

namespace Sys2Proof.Machine

/-! ### The codes -/

theorem sext_of_sign_clear {N : Nat} {v : BitVec N} (h : v.getLsbD (N - 1) = false) : sext v = v.toNat := by
  rw [← BitVec.msb_eq_getLsbD_last] at h
  simp [sext, h]

theorem sext_of_sign_set {N : Nat} {v : BitVec N} (h : v.getLsbD (N - 1) = true) : sext v = (v.toNat : Int) - 2 ^ N := by
  rw [← BitVec.msb_eq_getLsbD_last] at h
  simp [sext, h]

/-- The source's correction "invert, add one, negate" is subtraction of 2^N, at every width. -/
theorem neg_complement_add_one {N : Nat} (v : BitVec N) : -(complement v + 1) = (v.toNat : Int) - 2 ^ N := by
  rw [complement]
  ring

/-- Settles O12: both codes are sign extensions of their fields, and for a set sign bit that is the source's correction. -/
theorem codesMatchTheSourcesCorrection : Obligations.CodesMatchTheSourcesCorrection := by
  refine ⟨fun frame => ?_, fun frame => ?_⟩
  · exact ⟨(tcCode_range frame).1, (tcCode_range frame).2, fun h => sext_of_sign_clear h,
      fun h => ⟨sext_of_sign_set h, (sext_of_sign_set h).trans (neg_complement_add_one _).symm⟩⟩
  · exact ⟨(cjCode_range frame).1, (cjCode_range frame).2, fun h => sext_of_sign_clear h,
      fun h => ⟨sext_of_sign_set h, (sext_of_sign_set h).trans (neg_complement_add_one _).symm⟩⟩

/-! ### The frame bits an operation reads -/

theorem extractLsb'_congr {n start len : Nat} {f g : BitVec n} (h : ∀ i < len, f.getLsbD (start + i) = g.getLsbD (start + i)) :
    f.extractLsb' start len = g.extractLsb' start len := by
  ext i hi
  rw [BitVec.getElem_extractLsb', BitVec.getElem_extractLsb', h i hi]

theorem execDecodeTc_congr {f g : Frame} (h : tcField f = tcField g) (s : State) : execDecodeTc f s = execDecodeTc g s := by
  simp only [execDecodeTc, approxCelsius, tcCode, h]

/-- CORRECT takes from the frame the TC field only: for the value, and for the bits of a NaN (log entry 2). -/
theorem execCorrect_congr {f g : Frame} (h : tcField f = tcField g) (t : TcCode) (s : State) :
    execCorrect f t s = execCorrect g t s := by
  simp only [execCorrect, corrected, voltage, approxCelsius, tcCode, h]

theorem execDecodeInternal_congr {f g : Frame} (h : cjField f = cjField g) (s : State) :
    execDecodeInternal f s = execDecodeInternal g s := by
  simp only [execDecodeInternal, internalCelsius, cjCode, h]

theorem execClassify_congr {f g : Frame} (hfault : faultBit f = faultBit g) (hcause : causeField f = causeField g) (s : State) :
    execClassify f s = execClassify g s := by
  simp only [execClassify, hfault, hcause]

/-- Settles O15: each operation reads the frame through its own fields, and frames that agree on a field's bits have that field in
common. -/
theorem operationsReadOnlyTheirFrameBits : Obligations.OperationsReadOnlyTheirFrameBits := by
  intro f g s
  refine ⟨fun h => ?_, fun h => ?_, fun hbit h => ?_⟩
  · have htc : tcField f = tcField g := extractLsb'_congr fun i _ => h (18 + i) (by omega)
    exact ⟨execDecodeTc_congr htc s, fun t => execCorrect_congr htc t s⟩
  · have hcj : cjField f = cjField g := extractLsb'_congr fun i hi => h (4 + i) (by omega) (by omega)
    exact execDecodeInternal_congr hcj s
  · have hfault : faultBit f = faultBit g := extractLsb'_congr fun i hi => by
      obtain rfl : i = 0 := by omega
      exact hbit
    have hcause : causeField f = causeField g := extractLsb'_congr fun i hi => h (0 + i) (by omega)
    exact execClassify_congr hfault hcause s

/-! ### The store entry of a type code -/

theorem storeEntry_typeK (st : Store) : storeEntry st 0b000#3 = some (scaleK, st.coeffK) := rfl

theorem storeEntry_typeT (st : Store) : storeEntry st 0b001#3 = st.coeffT.map (fun table => (st.scaleT, table)) := rfl

theorem storeEntry_of_ne {t : TcCode} (hK : t ≠ 0b000#3) (hT : t ≠ 0b001#3) (st : Store) : storeEntry st t = none := by
  rw [storeEntry, if_neg hK, if_neg hT]

theorem execCorrect_of_storeEntry_none {t : TcCode} {s : State} (h : storeEntry s.store t = none) (frame : Frame) :
    execCorrect frame t s = raise .unsupportedThermocoupleType s := by
  simp only [execCorrect, h]

/-- Settles O17: the table of R72 code by code, and CORRECT's check of the type before it computes. -/
theorem typeCodesSelectTheStore : Obligations.TypeCodesSelectTheStore := by
  intro st
  refine ⟨storeEntry_typeK st, fun table hT => ?_, fun hT => ?_, fun t hK hT => storeEntry_of_ne hK hT st, ?_⟩
  · rw [storeEntry_typeT, hT, Option.map_some]
  · rw [storeEntry_typeT, hT, Option.map_none]
  · rintro t frame s rfl hnone
    exact execCorrect_of_storeEntry_none hnone frame

end Sys2Proof.Machine
end

section
/-! PROOFS. The frame decoder (spec/40_frame_decoder.md): both decodes answer a code times the weight of its field, exactly (R101 to
R103), so they undo `enc_N` (R104) and keep the order of the codes (R105). -/

namespace Sys2Proof.Machine

/-! ### A value that is exactly a code divided by a whole number -/

/-- `v` is the canonical form of `code / d`, with the sign of the code: what `approxCelsius_exact` and `internalCelsius_exact` say. -/
def IsCodeOver (v : Fp) (code : Int) (d : Nat) : Prop :=
  ∃ m k, v = .fin (decide (code < 0)) m k ∧ Canonical (.fin (decide (code < 0)) m k) ∧ units m k * d = code.natAbs * oneUnits

theorem isCodeOver_internalCelsius (frame : Frame) : IsCodeOver (internalCelsius frame) (cjCode frame) 16 :=
  internalCelsius_exact frame

theorem isCodeOver_approxCelsius (frame : Frame) : IsCodeOver (approxCelsius frame) (tcCode frame) 4 :=
  approxCelsius_exact frame

theorem isCodeOver_f64 {code : Int} (h : code.natAbs < 2 ^ 53) : IsCodeOver (f64 code) code 1 := by
  obtain ⟨m, k, hv, hc, hu⟩ := f64_exact code h
  exact ⟨m, k, hv, hv ▸ hc, by rw [Nat.mul_one, hu]⟩

/-- The sign of an integer put back on its magnitude, through an exact product. -/
theorem signed_mul_of_natAbs {n : Int} {u d w : Nat} (h : u * d = n.natAbs * w) : signed (decide (n < 0)) u * d = n * w := by
  have hcast : (u : Int) * d = n.natAbs * w := by exact_mod_cast h
  by_cases hn : n < 0
  · have habs : (n.natAbs : Int) = -n := by omega
    rw [signed, decide_eq_true hn, if_pos rfl, Int.neg_mul, hcast, habs, Int.neg_mul, Int.neg_neg]
  · have habs : (n.natAbs : Int) = n := by omega
    rw [signed, decide_eq_false hn, if_neg Bool.false_ne_true, hcast, habs]

section
variable {v : Fp} {code : Int} {d : Nat}

theorem IsCodeOver.ne_nan (h : IsCodeOver v code d) : v ≠ .nan := by
  obtain ⟨m, k, rfl, -, -⟩ := h
  simp

theorem IsCodeOver.canonical (h : IsCodeOver v code d) : Canonical v := by
  obtain ⟨m, k, rfl, hc, -⟩ := h
  exact hc

theorem IsCodeOver.orderKey (h : IsCodeOver v code d) :
    ∃ z, Machine.orderKey v = some z ∧ z * d = code * oneUnits := by
  obtain ⟨m, k, rfl, -, hu⟩ := h
  exact ⟨_, rfl, signed_mul_of_natAbs hu⟩

theorem IsCodeOver.unpack_pack (h : IsCodeOver v code d) (p : BitVec 52) : unpack (pack p v) = v :=
  Machine.unpack_pack p v h.canonical

/-- The word of such a value is the finite number `code / d`. -/
theorem IsCodeOver.hasValue (h : IsCodeOver v code d) (p : BitVec 52) : HasValue (pack p v) code d := by
  rw [HasValue, isFinite_iff, h.unpack_pack]
  have ⟨m, k, hv, _⟩ := h
  exact ⟨⟨_, m, k, hv⟩, h.orderKey⟩

/-- 1.0 is more units than sixteen times the significand of any subnormal. -/
theorem lt_oneUnits : 2 ^ 52 * 16 < oneUnits :=
  calc 2 ^ 52 * 16 = 2 ^ 56 := by norm_num
    _ < oneUnits := Nat.pow_lt_pow_right (by omega) (by rw [unitExponent_eq]; omega)

/-- The word of such a value is +0.0 for code 0, and is not subnormal for any other code: a significand below 2^52 stands in the
lowest binade, far below 1/16. -/
theorem IsCodeOver.posZero_or_normal (h : IsCodeOver v code d) (hd0 : 0 < d) (hd : d ≤ 16) (p : BitVec 52) :
    pack p v = posZero ∨ exponentField (pack p v) ≠ 0 := by
  obtain ⟨m, k, rfl, ⟨-, hk, hnormal⟩, hu⟩ := h
  by_cases hcode : code = 0
  · left
    subst hcode
    obtain rfl : m = 0 := by simpa [units, hd0.ne'] using hu
    rw [pack, if_pos (by omega)]
    rfl
  · right
    have hm : 2 ^ 52 ≤ m := by
      by_contra hm
      obtain rfl : k = 0 := hnormal.resolve_right hm
      have hlt : code.natAbs * oneUnits < 1 * oneUnits :=
        calc code.natAbs * oneUnits = m * d := by rw [← hu, units, Nat.pow_zero, Nat.mul_one]
          _ ≤ 2 ^ 52 * 16 := Nat.mul_le_mul (by omega) hd
          _ < 1 * oneUnits := by rw [Nat.one_mul]; exact lt_oneUnits
      have := Nat.lt_of_mul_lt_mul_right hlt
      omega
    rw [pack, if_neg (by omega), exponentField_packFields _ _ _ (by omega)]
    omega

/-- The words of two values over one divisor are ordered as their codes. -/
theorem IsCodeOver.fge_pack {v' : Fp} {code' : Int} (h : IsCodeOver v code d) (h' : IsCodeOver v' code' d) (hd : 0 < d)
    (hle : code ≤ code') (p : BitVec 52) : fge (unpack (pack p v')) (unpack (pack p v)) = true := by
  rw [h.unpack_pack, h'.unpack_pack]
  obtain ⟨z, hz, hzd⟩ := h.orderKey
  obtain ⟨z', hz', hzd'⟩ := h'.orderKey
  refine (fge_iff v' v).2 ⟨z', z, hz', hz, le_of_mul_le_mul_right ?_ (Int.natCast_pos.2 hd)⟩
  rw [hzd, hzd']
  exact Int.mul_le_mul_of_nonneg_right hle (Int.natCast_nonneg oneUnits)

end

/-! ### The answers of the two decodes -/

theorem exec_decodeInternal (frame : Frame) (s : State) (p : BitVec 52) :
    exec (.decodeInternal frame) s = .next (s.withRsp (some (.ok (pack p (internalCelsius frame))))) := by
  rw [pack_congr p 0 _ (isCodeOver_internalCelsius frame).ne_nan]
  rfl

theorem exec_decodeTc (frame : Frame) (s : State) (p : BitVec 52) :
    exec (.decodeTc frame) s = .next (s.withRsp (some (.ok (pack p (approxCelsius frame))))) := by
  rw [pack_congr p 0 _ (isCodeOver_approxCelsius frame).ne_nan]
  rfl

/-- The answer for one value of the CJ field, whatever the other bits of the frame. -/
theorem exec_decodeInternal_of_field {frame : Frame} {field : BitVec 12} {b : F64} (hfield : cjField frame = field)
    (hb : pack 0 (fmul (f64 (sext field)) cjLsb) = b) (s : State) :
    exec (.decodeInternal frame) s = .next (s.withRsp (some (.ok b))) := by
  rw [exec_decodeInternal frame s 0, internalCelsius, cjCode, hfield, hb]

/-- The answer for one value of the TC field, whatever the other bits of the frame. -/
theorem exec_decodeTc_of_field {frame : Frame} {field : BitVec 14} {b : F64} (hfield : tcField frame = field)
    (hb : pack 0 (fmul (f64 (sext field)) tcLsb) = b) (s : State) :
    exec (.decodeTc frame) s = .next (s.withRsp (some (.ok b))) := by
  rw [exec_decodeTc frame s 0, approxCelsius, tcCode, hfield, hb]

theorem sext_eq_ite {N : Nat} (v : BitVec N) :
    sext v = if v.getLsbD (N - 1) = true then (v.toNat : Int) - 2 ^ N else v.toNat := by
  split_ifs with hsign
  · exact sext_of_sign_set hsign
  · exact sext_of_sign_clear (Bool.eq_false_of_not_eq_true hsign)

/-- Settles O7: the code is the sign extension of the CJ field, the value is never NaN, and the corners are the value at five
fields. -/
theorem decodeInternalAnswersColdJunction : Obligations.DecodeInternalAnswersColdJunction := by
  refine ⟨fun w hop => decodeRequest_of_op_decodeInternal (r := Request.ofWord w) hop, fun frame s nanBits => ?_,
    fun frame s => ⟨fun h => ?_, fun h => ?_, fun h => ?_, fun h => ?_, fun h => ?_⟩⟩
  · intro m cj
    have hcode : cj = cjCode frame := (sext_eq_ite (cjField frame)).symm
    rw [hcode]
    exact exec_decodeInternal frame s nanBits
  · exact exec_decodeInternal_of_field h (by decide +kernel) s
  · exact exec_decodeInternal_of_field h (by decide +kernel) s
  · exact exec_decodeInternal_of_field h (by decide +kernel) s
  · exact exec_decodeInternal_of_field h (by decide +kernel) s
  · exact exec_decodeInternal_of_field (congrArg cjField h) (by decide +kernel) s

/-- Settles O8: as O7, with the TC field and its weight. -/
theorem decodeTcAnswersThermocouple : Obligations.DecodeTcAnswersThermocouple := by
  refine ⟨fun w hop => decodeRequest_of_op_decodeTc (r := Request.ofWord w) hop, fun frame s nanBits => ?_,
    fun frame s => ⟨fun h => ?_, fun h => ?_, fun h => ?_, fun h => ?_, fun h => ?_⟩⟩
  · intro m tc
    have hcode : tc = tcCode frame := (sext_eq_ite (tcField frame)).symm
    rw [hcode]
    exact exec_decodeTc frame s nanBits
  · exact exec_decodeTc_of_field h (by decide +kernel) s
  · exact exec_decodeTc_of_field h (by decide +kernel) s
  · exact exec_decodeTc_of_field h (by decide +kernel) s
  · exact exec_decodeTc_of_field h (by decide +kernel) s
  · exact exec_decodeTc_of_field (congrArg tcField h) (by decide +kernel) s

/-! ### The codes of encoded fields -/

/-- `enc_N` is undone by sign extension on the N-bit signed range (R104). -/
theorem sext_encField {N : Nat} {v : Int} (hN : 0 < N) (hlo : -2 ^ (N - 1) ≤ v) (hhi : v < 2 ^ (N - 1)) :
    sext (encField N v) = v := by
  rw [sext_eq_toInt, encField, BitVec.toInt_ofInt_eq_self hN hlo hhi]

/-- A frame with the given CJ field, its other bits zero. -/
def frameOfCjField (field : BitVec 12) : Frame := 0#16 ++ field ++ 0#4

/-- A frame with the given TC field, its other bits zero. -/
def frameOfTcField (field : BitVec 14) : Frame := field ++ 0#18

theorem cjField_frameOfCjField (field : BitVec 12) : cjField (frameOfCjField field) = field := by
  ext i hi
  rw [cjField, frameOfCjField, BitVec.getElem_extractLsb', BitVec.getLsbD_append, BitVec.getLsbD_append, if_neg (by omega),
    if_pos (by omega), Nat.add_sub_cancel_left, BitVec.getLsbD_eq_getElem hi]

theorem tcField_frameOfTcField (field : BitVec 14) : tcField (frameOfTcField field) = field :=
  BitVec.extractLsb'_append_eq_left

/-- Settles O9: exactness, finiteness and the absence of subnormals are those of a code over 1, 16 and 4; every code in range is
the code of the frame that carries `enc_N` of it. -/
theorem decodesAreExact : Obligations.DecodesAreExact := by
  refine ⟨fun code h => ?_, fun frame s => ?_, fun frame s => ?_, fun code hlo hhi => ?_, fun code hlo hhi => ?_⟩
  · obtain ⟨z, hz, hval⟩ := (isCodeOver_f64 (code := code) (by omega)).orderKey
    rw [hz, ← hval, Nat.cast_one, Int.mul_one]
  · have hv := isCodeOver_internalCelsius frame
    exact ⟨_, exec_decodeInternal frame s 0, hv.hasValue 0, hv.posZero_or_normal (by omega) (by omega) 0, cjCode_range frame⟩
  · have hv := isCodeOver_approxCelsius frame
    exact ⟨_, exec_decodeTc frame s 0, hv.hasValue 0, hv.posZero_or_normal (by omega) (by omega) 0, tcCode_range frame⟩
  · refine ⟨frameOfCjField (encField 12 code), ?_⟩
    rw [cjCode, cjField_frameOfCjField]
    exact sext_encField (by omega) (by omega) (by omega)
  · refine ⟨frameOfTcField (encField 14 code), ?_⟩
    rw [tcCode, tcField_frameOfTcField]
    exact sext_encField (by omega) (by omega) (by omega)

/-- Settles O10: the field's sign extension is `v`, and the decode has the value of its code. -/
theorem encodedCodesDecodeBack : Obligations.EncodedCodesDecodeBack := by
  refine ⟨fun v frame s hlo hhi hfield => ?_, fun v frame s hlo hhi hfield => ?_⟩
  · have hsext : sext (encField 12 v) = v := sext_encField (by omega) (by omega) (by omega)
    have hcode : cjCode frame = v := by rw [cjCode, hfield, hsext]
    exact ⟨hsext, _, exec_decodeInternal frame s 0, hcode ▸ (isCodeOver_internalCelsius frame).hasValue 0⟩
  · have hsext : sext (encField 14 v) = v := sext_encField (by omega) (by omega) (by omega)
    have hcode : tcCode frame = v := by rw [tcCode, hfield, hsext]
    exact ⟨hsext, _, exec_decodeTc frame s 0, hcode ▸ (isCodeOver_approxCelsius frame).hasValue 0⟩

/-- Settles O11: both answers are codes over the same divisor, so they are ordered as the codes. -/
theorem decodesAreMonotone : Obligations.DecodesAreMonotone := by
  refine ⟨fun f g s hle => ?_, fun f g s hle => ?_⟩
  · exact ⟨_, _, exec_decodeInternal f s 0, exec_decodeInternal g s 0,
      (isCodeOver_internalCelsius f).fge_pack (isCodeOver_internalCelsius g) (by omega) hle 0⟩
  · exact ⟨_, _, exec_decodeTc f s 0, exec_decodeTc g s 0,
      (isCodeOver_approxCelsius f).fge_pack (isCodeOver_approxCelsius g) (by omega) hle 0⟩

end Sys2Proof.Machine
end

section
/-! PROOFS. The fault classifier (spec/41_fault_classifier.md): CLASSIFY answers the code of the kind that the fault bit and the
cause field select (R111, R112), and no two kinds share a code (R73), so the code of None stands for no fault alone (R113). -/

namespace Sys2Proof.Machine

/-! ### The kind of a fault bit and a cause -/

theorem kindOf_of_fault_clear {fault : BitVec 1} (h : fault = 0#1) (cause : BitVec 3) : kindOf fault cause = .none := if_pos h

section
variable {fault : BitVec 1} (hfault : fault ≠ 0#1)
include hfault

theorem kindOf_openCircuit : kindOf fault 0b001#3 = .openCircuit := if_neg hfault

theorem kindOf_shortToGnd : kindOf fault 0b010#3 = .shortToGnd := if_neg hfault

theorem kindOf_shortToVcc : kindOf fault 0b011#3 = .shortToVcc := if_neg hfault

theorem kindOf_unspecified {cause : BitVec 3} (h1 : cause ≠ 0b001#3) (h2 : cause ≠ 0b010#3) (h3 : cause ≠ 0b011#3) :
    kindOf fault cause = .unspecified := by
  rw [kindOf, if_neg hfault, if_neg h1, if_neg h2, if_neg h3]

/-- A set fault bit never gives None, whatever the cause: each branch of R111 below the first names another kind. -/
theorem kindOf_ne_none (cause : BitVec 3) : kindOf fault cause ≠ .none := by
  rw [kindOf, if_neg hfault]
  split_ifs <;> exact FaultKind.noConfusion

end

theorem kindOf_eq_none_iff (fault : BitVec 1) (cause : BitVec 3) : kindOf fault cause = .none ↔ fault = 0#1 :=
  ⟨fun h => by_contra fun hfault => kindOf_ne_none hfault cause h, fun h => kindOf_of_fault_clear h cause⟩

/-- The result of CLASSIFY tells the five kinds apart (R73). -/
theorem zext64_kindCode_inj {k k' : FaultKind} : zext64 (kindCode k) = zext64 (kindCode k') ↔ k = k' := by
  cases k <;> cases k' <;> decide

/-! ### The answer of CLASSIFY -/

theorem faultBit_eq_zero_iff (frame : Frame) : faultBit frame = 0#1 ↔ frame.getLsbD 16 = false := by
  have hzero : ∀ b : BitVec 1, b = 0#1 ↔ b.getLsbD 0 = false := by decide
  rw [hzero, faultBit, getLsbD_extractLsb'_of_lt frame 16 (by omega)]

theorem faultBit_ne_zero_iff (frame : Frame) : faultBit frame ≠ 0#1 ↔ frame.getLsbD 16 = true := by
  rw [Ne, faultBit_eq_zero_iff, Bool.not_eq_false]

theorem exec_classify_of_kind {frame : Frame} {k : FaultKind} (h : kindOf (faultBit frame) (causeField frame) = k) (s : State) :
    exec (.classify frame) s = .next (s.withRsp (some (.ok (zext64 (kindCode k))))) := by
  rw [← h]
  rfl

/-- The answer for one cause under a set fault bit, whatever the other bits of the frame. -/
theorem exec_classify_of_cause {frame : Frame} {cause : BitVec 3} {k : FaultKind} (hcause : causeField frame = cause)
    (hkind : kindOf (faultBit frame) cause = k) (s : State) :
    exec (.classify frame) s = .next (s.withRsp (some (.ok (zext64 (kindCode k))))) :=
  exec_classify_of_kind (hcause ▸ hkind) s

/-- Settles O14: the codes tell the kinds apart, and the kind is None exactly for a clear fault bit. -/
theorem onlyNoneMeansNoFault : Obligations.OnlyNoneMeansNoFault := by
  intro frame s
  refine ⟨_, exec_classify_of_kind rfl s, ?_, fun hcode => ?_⟩
  · rw [zext64_kindCode_inj, kindOf_eq_none_iff, faultBit_eq_zero_iff]
  · have hkind := zext64_kindCode_inj.1 hcode
    rw [← faultBit_ne_zero_iff, Ne, ← kindOf_eq_none_iff _ (causeField frame), hkind]
    decide

/-- Settles O13: the rows of R111 by the fault bit and the cause; the five causes that name no kind are not one of the three that
do. -/
theorem classifyFollowsTheTruthTable : Obligations.ClassifyFollowsTheTruthTable := by
  refine ⟨fun w hop => decodeRequest_of_op_classify (r := Request.ofWord w) hop,
    fun frame s => ⟨fun hclear => ?_, fun hset => ?_⟩⟩
  · exact exec_classify_of_kind (kindOf_of_fault_clear ((faultBit_eq_zero_iff frame).2 hclear) _) s
  · have hfault : faultBit frame ≠ 0#1 := (faultBit_ne_zero_iff frame).2 hset
    refine ⟨fun h => exec_classify_of_cause h (kindOf_openCircuit hfault) s,
      fun h => exec_classify_of_cause h (kindOf_shortToGnd hfault) s,
      fun h => exec_classify_of_cause h (kindOf_shortToVcc hfault) s, ?_⟩
    rintro (h | h | h | h | h) <;>
      exact exec_classify_of_cause h (kindOf_unspecified hfault (by decide) (by decide) (by decide)) s

end Sys2Proof.Machine
end

section
/-! PROOFS. The linearizer (spec/42_linearizer.md): which tables are well-formed (R124), which region a voltage selects (R125,
R126), and that CORRECT answers the polynomial of that region (R127, R128, R133). -/

namespace Sys2Proof.Machine

/-! ### Well-formed tables -/

theorem increasing_of_pairwise : ∀ {bs : List F64}, bs.Pairwise (fun a b => flt (unpack a) (unpack b) = true) →
    increasing bs = true
  | [], _ => rfl
  | [_], _ => rfl
  | a :: b :: bs, h => by
    obtain ⟨hhead, htail⟩ := List.pairwise_cons.1 h
    rw [increasing, Bool.and_eq_true]
    exact ⟨hhead b List.mem_cons_self, increasing_of_pairwise htail⟩

theorem coeffsFinite_iff (c : Coeffs) : coeffsFinite c = true ↔
    ∀ b ∈ [c.To, c.Vo, c.p1, c.p2, c.p3, c.p4, c.q1, c.q2, c.q3], isFinite b = true := by
  simp [coeffsFinite, and_assoc]

theorem tableWellFormed_iff (t : Table) : tableWellFormed t = true ↔
    (∀ b ∈ boundaries t, isFinite b = true) ∧ (boundaries t).Pairwise (fun a b => flt (unpack a) (unpack b) = true) ∧
      ∀ c ∈ records t, coeffsFinite c = true := by
  refine ⟨tableWellFormed_parts, fun ⟨hfin, hinc, hcoeffs⟩ => ?_⟩
  rw [tableWellFormed, Bool.and_eq_true, Bool.and_eq_true]
  exact ⟨⟨List.all_eq_true.2 hfin, increasing_of_pairwise hinc⟩, List.all_eq_true.2 hcoeffs⟩

theorem hasAdjacent_iff (lo hi : F64) : ∀ bs : List F64,
    hasAdjacent lo hi bs = true ↔ ∃ i : Nat, bs[i]? = some lo ∧ bs[i + 1]? = some hi
  | [] => by simp [hasAdjacent]
  | [a] => by simp [hasAdjacent]
  | a :: b :: bs => by
    have ih := hasAdjacent_iff lo hi (b :: bs)
    simp only [hasAdjacent, Bool.or_eq_true, Bool.and_eq_true, beq_iff_eq, ih]
    constructor
    · rintro (⟨rfl, rfl⟩ | ⟨i, hlo, hhi⟩)
      · exact ⟨0, rfl, rfl⟩
      · exact ⟨i + 1, hlo, hhi⟩
    · rintro ⟨_ | i, hlo, hhi⟩
      · exact .inl ⟨Option.some.inj hlo, Option.some.inj hhi⟩
      · exact .inr ⟨i, hlo, hhi⟩

theorem sourceRegionLower_eq : sourceRegionLower = 0xC00C6E978D4FDF3B#64 := by decide +kernel
theorem sourceRegionUpper_eq : sourceRegionUpper = 0x4010624DD2F1A9FC#64 := by decide +kernel

theorem tableKWellFormed_iff (t : Table) : tableKWellFormed t = true ↔ tableWellFormed t = true ∧
    ∃ i : Nat, (boundaries t)[i]? = some 0xC00C6E978D4FDF3B#64 ∧ (boundaries t)[i + 1]? = some 0x4010624DD2F1A9FC#64 := by
  rw [tableKWellFormed, Bool.and_eq_true, hasAdjacent_iff, sourceRegionLower_eq, sourceRegionUpper_eq]

/-- Two boundaries, the source's, stand between at least three regions. -/
theorem three_le_nreg_of_tableKWellFormed {t : Table} (h : tableKWellFormed t = true) : 3 ≤ nreg t := by
  obtain ⟨-, i, -, hupper⟩ := (tableKWellFormed_iff t).1 h
  obtain ⟨hi, -⟩ := List.getElem?_eq_some_iff.1 hupper
  have hlen := boundaries_length t
  omega

theorem tables_wellFormed_of_build_ok {p : Params} {s : State} (h : build p = .ok s) :
    (∀ t, p.coeffK = some t → tableKWellFormed t = true) ∧ ∀ t, p.coeffT = some t → tableWellFormed t = true := by
  obtain ⟨c, hc, -⟩ := (build_ok_iff p s).1 h
  obtain ⟨k, hk, rfl, hlegal⟩ := (checkParams_ok_iff p c).1 hc
  obtain ⟨-, hwfK, -, hwfT⟩ := (settings_legal_iff _).1 hlegal
  refine ⟨fun t ht => ?_, (coeffTLegal_iff _).1 hwfT⟩
  cases hk.symm.trans ht
  exact hwfK

/-- Settles O19: both checks say what R124 says, and a build that succeeds has passed them. -/
theorem wellFormedTablesAreOrdered : Obligations.WellFormedTablesAreOrdered := by
  refine ⟨fun t => ?_, tableKWellFormed_iff, fun t h => three_le_nreg_of_tableKWellFormed h, fun p t hbad => ?_⟩
  · simp only [tableWellFormed_iff, coeffsFinite_iff]
  · cases hbuild : build p with
    | error e => exact ⟨e, rfl⟩
    | ok s =>
      obtain ⟨hK, hT⟩ := tables_wellFormed_of_build_ok hbuild
      rcases hbad with ⟨ht, hill⟩ | ⟨ht, hill⟩
      · exact absurd (hK t ht) (by simp [hill])
      · exact absurd (hT t ht) (by simp [hill])

/-! ### The selected region -/

theorem unpack_ne_nan_of_isFinite {b : F64} (h : isFinite b = true) : unpack b ≠ .nan := by
  obtain ⟨neg, m, k, hb⟩ := (isFinite_iff b).1 h
  simp [hb]

/-- Off NaN the two comparisons are each other's negation. -/
theorem flt_eq_not_fge {a b : Fp} (ha : a ≠ .nan) (hb : b ≠ .nan) : flt a b = !fge a b := by
  obtain ⟨x, hx⟩ := Option.ne_none_iff_exists'.1 (mt (orderKey_none_iff a).1 ha)
  obtain ⟨y, hy⟩ := Option.ne_none_iff_exists'.1 (mt (orderKey_none_iff b).1 hb)
  simp only [flt, fge, hx, hy, ← decide_not, Int.not_le]

theorem fge_self {a : Fp} (ha : a ≠ .nan) : fge a a = true := by
  obtain ⟨x, hx⟩ := Option.ne_none_iff_exists'.1 (mt (orderKey_none_iff a).1 ha)
  exact (fge_iff a a).2 ⟨x, x, hx, hx, le_rfl⟩

theorem select_eq_zero_of_below {t : Table} {v : Fp} (h : ∀ b ∈ boundaries t, fge v (unpack b) = false) : select t v = 0 := by
  rw [select]
  cases hbs : boundaries t with
  | nil => rfl
  | cons b bs => simp [selectLoop, h b (hbs ▸ List.mem_cons_self)]

theorem select_eq_length_of_above {t : Table} {v : Fp} (h : ∀ b ∈ boundaries t, fge v (unpack b) = true) :
    select t v = (boundaries t).length := by
  obtain ⟨hle, -, hstop⟩ := select_spec t v
  by_contra hne
  have hlt : select t v < (boundaries t).length := by omega
  have hfalse := hstop _ (List.getElem?_eq_getElem hlt)
  rw [h _ (List.getElem_mem hlt)] at hfalse
  cases hfalse

section
variable {t : Table} (hw : tableWellFormed t = true)
include hw

/-- The boundaries before the selected region are all counted, and the ones from there on are not. -/
theorem select_eq_countP (v : Fp) : select t v = (boundaries t).countP (fun b => fge v (unpack b)) := by
  obtain ⟨hle, hbefore, -⟩ := select_spec t v
  have hafter : ∀ b ∈ (boundaries t).drop (select t v), ¬ fge v (unpack b) = true := by
    intro b hb
    obtain ⟨j, hj, rfl⟩ := List.mem_drop_iff_getElem.1 hb
    rw [fge_boundary_iff hw v (select t v + j) _ (List.getElem?_eq_getElem _)]
    omega
  rw [← List.take_append_drop (select t v) (boundaries t), List.countP_append, List.countP_eq_length.2 hbefore,
    List.countP_eq_zero.2 hafter, List.length_take_of_le hle, Nat.add_zero]

theorem boundary_ne_nan {i : Nat} {b : F64} (hb : (boundaries t)[i]? = some b) : unpack b ≠ .nan :=
  unpack_ne_nan_of_isFinite ((tableWellFormed_parts hw).1 b (List.mem_of_getElem? hb))

/-- Lower bounds are inclusive: a voltage on boundary `j` is below the next one and selects the region between them. -/
theorem select_boundary {j : Nat} {b : F64} (hb : (boundaries t)[j]? = some b) : select t (unpack b) = j + 1 := by
  have hpast : j < select t (unpack b) := (fge_boundary_iff hw _ j b hb).1 (fge_self (boundary_ne_nan hw hb))
  by_contra hne
  have hlen := (select_spec t (unpack b)).1
  have hlt : j + 1 < (boundaries t).length := by omega
  have hnext := List.getElem?_eq_getElem hlt
  have hge := (fge_boundary_iff hw (unpack b) (j + 1) _ hnext).2 (by omega)
  obtain ⟨hj, hbj⟩ := List.getElem?_eq_some_iff.1 hb
  have hinc := List.pairwise_iff_getElem.1 (tableWellFormed_parts hw).2.1 j (j + 1) hj hlt (by omega)
  rw [hbj, flt_eq_not_fge (boundary_ne_nan hw hb) (boundary_ne_nan hw hnext), hge] at hinc
  cases hinc

/-- The lower bound of region `i` holds of `v` exactly when the selected region is `i` or above it. -/
theorem lower_bound_iff_le_select (v : Fp) {i : Nat} (hi : i < nreg t) :
    (i = 0 ∨ ∃ b, (boundaries t)[i - 1]? = some b ∧ fge v (unpack b) = true) ↔ i ≤ select t v := by
  cases i with
  | zero => simp
  | succ j =>
    have hlen := boundaries_length t
    have hb := List.getElem?_eq_getElem (l := boundaries t) (i := j) (by omega)
    simp [hb, fge_boundary_iff hw v j _ hb]

/-- The upper bound of region `i` holds of `v` exactly when the selected region is `i` or below it. -/
theorem upper_bound_iff_select_le {v : Fp} (hv : v ≠ .nan) {i : Nat} (hi : i < nreg t) :
    (i + 1 = nreg t ∨ ∃ b, (boundaries t)[i]? = some b ∧ flt v (unpack b) = true) ↔ select t v ≤ i := by
  have hlen := boundaries_length t
  by_cases hlast : i + 1 = nreg t
  · have hsel := select_lt_nreg t v
    exact iff_of_true (.inl hlast) (by omega)
  · have hb := List.getElem?_eq_getElem (l := boundaries t) (i := i) (by omega)
    have hflt := flt_eq_not_fge hv (boundary_ne_nan hw hb)
    have hfge := fge_boundary_iff hw v i _ hb
    simp only [hlast, hb, hflt, Option.some.injEq, exists_eq_left', false_or, Bool.not_eq_true', ← Bool.not_eq_true, hfge,
      Nat.not_lt]

theorem covers_iff {v : Fp} (hv : v ≠ .nan) {i : Nat} (hi : i < nreg t) : Covers t i v ↔ i = select t v := by
  rw [Covers, lower_bound_iff_le_select hw v hi, upper_bound_iff_select_le hw hv hi, ← Nat.le_antisymm_iff]

end

/-- Settles O20: the loop's stopping place splits the boundaries into those at or below `v` and the rest. -/
theorem selectionCountsBoundaries : Obligations.SelectionCountsBoundaries := by
  intro t hw
  refine ⟨select_eq_countP hw, fun j b hb => select_boundary hw hb, fun v h => select_eq_zero_of_below h, fun v h => ?_⟩
  rw [select_eq_length_of_above h, boundaries_length]

/-- A reading is a finite number of degrees, so its product with a finite scale is not NaN. -/
theorem voltage_ne_nan (frame : Frame) {scale : F64} (h : isFinite scale = true) : voltage frame scale ≠ .nan := by
  obtain ⟨neg, m, k, hscale⟩ := (isFinite_iff scale).1 h
  obtain ⟨m', k', happrox, -⟩ := approxCelsius_exact frame
  rw [voltage, happrox, hscale]
  exact fmul_fin_ne_nan _ _ _ _ _ _

/-- Settles O21: the bounds of region `i` are `i ≤ select` and `select ≤ i`. -/
theorem selectionIsTotalAndUnique : Obligations.SelectionIsTotalAndUnique :=
  ⟨fun t v hw hv => ⟨select_lt_nreg t v, fun _ hi => covers_iff hw hv hi⟩, fun frame _ h => voltage_ne_nan frame h⟩

/-! ### The answer of CORRECT -/

theorem records_getElem?_select (t : Table) (v : Fp) : (records t)[select t v]? = some (lutSelected t v) :=
  List.getElem?_eq_getElem _

/-- With a scale and a table CORRECT answers the polynomial of the selected record; packing loses nothing of it. -/
theorem exec_correct_of_storeEntry {t : TcCode} {s : State} {scale : F64} {table : Table}
    (h : storeEntry s.store t = some (scale, table)) (frame : Frame) :
    ∃ r b, (records table)[select table (voltage frame scale)]? = some r ∧
      exec (.correct frame t) s = .next (s.withRsp (some (.ok b))) ∧ QuietIfNan b ∧
      unpack b = poly r (voltage frame scale) := by
  have hc := corrected_canonical frame scale table
  refine ⟨_, pack (Config.correctNan s.store t (tcField frame)) (corrected frame scale table), records_getElem?_select table _,
    ?_, quietIfNan_pack _ _ hc, unpack_pack _ _ hc⟩
  rw [exec, execCorrect, h]
  rfl

/-- Settles O16: the nine operations of R127 are those of `poly`, on the selected record. -/
theorem correctAnswersThePolynomial : Obligations.CorrectAnswersThePolynomial :=
  fun frame _ _ _ _ h => exec_correct_of_storeEntry h frame

/-- Settles O22: below every boundary the selected index is 0, at or above every boundary that of the last record. -/
theorem outOfRangeVoltagesAreExtrapolated : Obligations.OutOfRangeVoltagesAreExtrapolated := by
  intro frame t s scale table h
  obtain ⟨r, b, hr, hexec, -, hpoly⟩ := exec_correct_of_storeEntry h frame
  refine ⟨fun hbelow => ?_, fun habove => ⟨b, r, ?_, hexec, hpoly⟩⟩
  · rw [select_eq_zero_of_below hbelow] at hr
    cases hr
    exact ⟨b, hexec, hpoly⟩
  · rw [select_eq_length_of_above habove] at hr
    rw [List.getLast?_eq_getElem?, records_length, ← boundaries_length, Nat.add_sub_cancel, hr]

/-! ### The source's type-K example -/

theorem approxCelsius_of_code {frame : Frame} {code : Int} (h : tcCode frame = code) :
    approxCelsius frame = fmul (f64 code) tcLsb := by
  rw [approxCelsius, h]

theorem voltage_of_code {frame : Frame} {code : Int} (h : tcCode frame = code) (scale : F64) :
    voltage frame scale = fmul (fmul (f64 code) tcLsb) (unpack scale) := by
  rw [voltage, approxCelsius_of_code h]

/-- A voltage at or above boundary `i` and below boundary `i + 1` selects the region between them. -/
theorem select_eq_of_between {t : Table} (hw : tableWellFormed t = true) {v : Fp} {i : Nat} {lo hi : F64}
    (hlo : (boundaries t)[i]? = some lo) (hhi : (boundaries t)[i + 1]? = some hi) (hge : fge v (unpack lo) = true)
    (hlt : fge v (unpack hi) = false) : select t v = i + 1 := by
  have h1 := (fge_boundary_iff hw v i lo hlo).1 hge
  have h2 := mt (fge_boundary_iff hw v (i + 1) hi hhi).2 (by simp [hlt])
  omega

/-- Settles O23: code 100 has a voltage between the source's two boundaries, wherever in the table they stand. -/
theorem typeKExampleUsesTheSourceRegion : Obligations.TypeKExampleUsesTheSourceRegion := by
  intro frame s hK hcode
  obtain ⟨hw, i, hlower, hupper⟩ := (tableKWellFormed_iff _).1 hK
  have hv := voltage_of_code hcode scaleK
  have hsel : select s.store.coeffK (voltage frame scaleK) = i + 1 :=
    select_eq_of_between hw hlower hupper (by rw [hv]; decide +kernel) (by rw [hv]; decide +kernel)
  obtain ⟨r, b, hr, hexec, -, hpoly⟩ := exec_correct_of_storeEntry (storeEntry_typeK s.store) frame
  refine ⟨?_, ?_, i, r, b, hlower, hupper, hsel ▸ hr, hexec, hpoly⟩
  · rw [approxCelsius_of_code hcode]
    decide +kernel
  · rw [hv]
    decide +kernel

end Sys2Proof.Machine
end

section
/-! PROOFS. The exponential smoother (spec/43_smoother.md): what FILTER answers (R141), the weight 1 - alpha and alpha = 0.0
(R142), the source's example (R147), and the check of ALPHA at the build (R140). -/

namespace Sys2Proof.Machine

/-! ### Finite values -/

/-- Neither infinite nor NaN: what `isFinite` says of the value of a word. -/
def IsFiniteValue (v : Fp) : Prop := ∃ neg m k, v = .fin neg m k

theorem isFinite_iff_isFiniteValue (b : F64) : isFinite b = true ↔ IsFiniteValue (unpack b) := isFinite_iff b

/-- A finite sum has finite operands. -/
theorem IsFiniteValue.of_fadd {a b : Fp} (h : IsFiniteValue (fadd a b)) : IsFiniteValue a ∧ IsFiniteValue b := by
  obtain ⟨neg, m, k, h⟩ := h
  cases a with
  | nan => simp at h
  | inf s =>
    cases b with
    | nan => simp at h
    | inf t => simp only [fadd] at h; split at h <;> cases h
    | fin t m' k' => cases h
  | fin s m' k' =>
    cases b with
    | nan => simp at h
    | inf t => cases h
    | fin t m'' k'' => exact ⟨⟨s, m', k', rfl⟩, ⟨t, m'', k'', rfl⟩⟩

/-- A finite product has finite operands: zero times an infinity is NaN. -/
theorem IsFiniteValue.of_fmul {a b : Fp} (h : IsFiniteValue (fmul a b)) : IsFiniteValue a ∧ IsFiniteValue b := by
  obtain ⟨neg, m, k, h⟩ := h
  cases a with
  | nan => simp at h
  | inf s =>
    cases b with
    | nan => simp at h
    | inf t => cases h
    | fin t m' k' => simp only [fmul] at h; split at h <;> cases h
  | fin s m' k' =>
    cases b with
    | nan => simp at h
    | inf t => simp only [fmul] at h; split at h <;> cases h
    | fin t m'' k'' => exact ⟨⟨s, m', k', rfl⟩, ⟨t, m'', k'', rfl⟩⟩

/-- Zero times what is not finite is NaN. -/
theorem fmul_zero_of_not_isFiniteValue {v : Fp} (h : ¬ IsFiniteValue v) (s : Bool) (k : Nat) : fmul (.fin s 0 k) v = .nan := by
  cases v with
  | nan => rfl
  | inf neg => rfl
  | fin neg m k => exact absurd ⟨neg, m, k, rfl⟩ h

/-- A finite word has the sign of its value. -/
theorem signBit_of_unpack_fin {b : F64} {neg : Bool} {m k : Nat} (h : unpack b = .fin neg m k) : signBit b = neg := by
  rw [← pack_unpack 0 b (by simp [h]), h, pack, signBit_packFields]

/-! ### The answer of FILTER -/

theorem exec_filter (x : F64) (s : State) :
    exec (.filter x) s = .next ((s.withPrev (filterWord s.alpha s.prev x)).withRsp (some (.ok (filterWord s.alpha s.prev x)))) :=
  rfl

/-- FILTER answers the word whose value is the average, where that is not NaN. -/
theorem exec_filter_of_smoothed {x b : F64} {s : State} (hb : unpack b ≠ .nan) (h : smoothed s.alpha s.prev x = unpack b) :
    exec (.filter x) s = .next ((s.withPrev b).withRsp (some (.ok b))) := by
  rw [exec_filter, filterWord, h, pack_unpack _ _ hb]

/-- An operand that is not finite makes the answer not finite, whatever alpha and `prev` hold. -/
theorem isFinite_filterWord_of_operand {x : F64} (h : isFinite x = false) (alpha prev : F64) :
    isFinite (filterWord alpha prev x) = false := by
  rw [← Bool.not_eq_true, isFinite_iff_isFiniteValue] at h ⊢
  rw [unpack_filterWord]
  exact fun hout => h hout.of_fadd.2.of_fmul.2

/-- Settles O27: FILTER writes and answers the word of `smoothed`; a finite sum would need a finite product, and that a finite
operand. -/
theorem filterAnswersAndStoresTheAverage : Obligations.FilterAnswersAndStoresTheAverage := by
  refine ⟨fun w hop => decodeRequest_of_op_filter (r := Request.ofWord w) hop,
    fun x s hx => ⟨_, exec_filter x s, isFinite_filterWord_of_operand hx _ _⟩,
    fun x s => ⟨_, exec_filter x s, quietIfNan_pack _ _ (fadd_canonical _ _), unpack_filterWord _ _ _⟩,
    fun s halpha hprev => exec_filter_of_smoothed (by decide +kernel) ?_,
    fun s halpha hprev => exec_filter_of_smoothed (by decide +kernel) ?_⟩
  all_goals
    rw [halpha, hprev]
    decide +kernel

/-! ### The weight 1 - alpha -/

theorem oneUnits_eq_units {j k : Nat} (h : j + k = unitExponent) : oneUnits = units (2 ^ j) k := by
  rw [← units_one _ h, ← Nat.one_mul (units 1 _), ← units_mul_pow, Nat.one_mul]

/-- A value from 0.5 to 1.0 stands in the binade below 1.0, or is 1.0: its last place is 2^-53 or more, and 1.0 or less. -/
theorem exponent_bounds {m k : Nat} (hm : m < 2 ^ 53) (hlo : oneUnits ≤ 2 * units m k) (hhi : units m k ≤ oneUnits) :
    0 < m ∧ k ≤ unitExponent ∧ unitExponent < 54 + k := by
  have hm0 : 0 < m := by
    have hu : 0 < units m k := by
      have := oneUnits_pos
      omega
    exact Nat.pos_of_mul_pos_right hu
  refine ⟨hm0, (Nat.pow_le_pow_iff_right (a := 2) (by omega)).1 ((Nat.le_mul_of_pos_left _ hm0).trans hhi),
    (Nat.pow_lt_pow_iff_right (a := 2) (by omega)).1 ?_⟩
  calc 2 ^ unitExponent ≤ 2 * m * 2 ^ k := by rw [Nat.mul_assoc]; exact hlo
    _ < 2 ^ 54 * 2 ^ k := Nat.mul_lt_mul_of_pos_right (by omega) (Nat.two_pow_pos k)
    _ = 2 ^ (54 + k) := (Nat.pow_add 2 54 k).symm

/-- From 0.5 to 1.0 the difference from 1.0 is a multiple of alpha's own last place, of at most 53 bits, so it is exact. -/
theorem orderKey_one_sub_fin {m k : Nat} (hm : m < 2 ^ 53) (hlo : oneUnits ≤ 2 * units m k) (hhi : units m k ≤ oneUnits) :
    orderKey (fsub one (.fin false m k)) = some ((oneUnits : Int) - units m k) := by
  obtain ⟨hm0, hk, hexp⟩ := exponent_bounds hm hlo hhi
  have hpow : 2 ^ (unitExponent - k) ≤ 2 ^ 53 := Nat.pow_le_pow_right (by omega) (by omega)
  have hdiff : units (2 ^ (unitExponent - k) - m) k = oneUnits - units m k := by
    rw [oneUnits_eq_units (show unitExponent - k + k = unitExponent by omega)]
    exact Nat.sub_mul _ _ _
  have hcast : ((units (2 ^ (unitExponent - k) - m) k : Nat) : Int) = oneUnits - units m k := by
    rw [hdiff, Int.ofNat_sub hhi]
  rw [one_eq, ← hcast]
  refine orderKey_fadd_exact false true _ _ m k _ k false (by omega) (by rw [unitExponent_eq] at hk; omega) ?_
  rw [one_units]
  simp only [signed, if_true, Bool.false_eq_true, if_false, hcast]
  ring

theorem signed_true_nonpos (u : Nat) : signed true u ≤ 0 := by
  simp only [signed, if_true]
  omega

/-- A value from 0.5 to 1.0 is a positive finite one. -/
theorem exists_fin_of_orderKey_le_one {v : Fp} {z : Int} (h : orderKey v = some z) (hlo : (oneUnits : Int) ≤ 2 * z)
    (hhi : z ≤ oneUnits) : ∃ m k, v = .fin false m k ∧ z = units m k := by
  have hpos := oneUnits_pos
  cases v with
  | nan => cases h
  | inf neg =>
    cases h
    cases neg
    · have hlt : oneUnits < 2 ^ infinityExponent :=
        Nat.pow_lt_pow_right (by omega) (by rw [unitExponent_eq, infinityExponent_eq]; omega)
      simp only [signed, Bool.false_eq_true, if_false] at hhi
      omega
    · have := signed_true_nonpos (2 ^ infinityExponent)
      omega
  | fin neg m k =>
    cases h
    cases neg
    · exact ⟨m, k, rfl, rfl⟩
    · have := signed_true_nonpos (units m k)
      omega

theorem orderKey_one_sub_exact {alpha : F64} {z : Int} (h : orderKey (unpack alpha) = some z) (hlo : (oneUnits : Int) ≤ 2 * z)
    (hhi : z ≤ oneUnits) : orderKey (fsub one (unpack alpha)) = some (oneUnits - z) := by
  obtain ⟨m, k, hv, rfl⟩ := exists_fin_of_orderKey_le_one h hlo hhi
  have hc := unpack_canonical alpha
  rw [hv] at hc ⊢
  exact orderKey_one_sub_fin hc.1 (by omega) (by omega)

/-! ### FILTER with alpha = 0.0 -/

theorem one_sub_posZero : fsub one (unpack posZero) = one := by decide +kernel

/-- With alpha = 0.0 and a finite `prev`, the operand is added to a zero with the sign of `prev`. -/
theorem smoothed_posZero_of_fin {prev : F64} {neg : Bool} {m k : Nat} (h : unpack prev = .fin neg m k) (x : F64) :
    smoothed posZero prev x = fadd (.fin neg 0 0) (unpack x) := by
  rw [smoothed, one_sub_posZero, fmul_one_left _ (unpack_canonical x), unpack_posZero, h, fmul_zero_fin, Bool.false_bne]

/-- With alpha = 0.0 and a `prev` that is not finite, the product of the two is NaN. -/
theorem smoothed_posZero_of_not_isFinite {prev : F64} (h : isFinite prev = false) (x : F64) : smoothed posZero prev x = .nan := by
  rw [← Bool.not_eq_true, isFinite_iff_isFiniteValue] at h
  rw [smoothed, unpack_posZero, fmul_zero_of_not_isFiniteValue h, fadd_nan_left]

theorem unpack_negZero : unpack 0x8000000000000000#64 = .fin true 0 0 := by decide +kernel

/-- A zero added to a finite word other than -0.0 gives that word's value. -/
theorem fadd_zero_unpack {x : F64} (hx : isFinite x = true) (hne : x ≠ 0x8000000000000000#64) (neg : Bool) :
    fadd (.fin neg 0 0) (unpack x) = unpack x := by
  obtain ⟨sx, m, k, hv⟩ := (isFinite_iff x).1 hx
  have hc := unpack_canonical x
  rw [hv] at hc ⊢
  by_cases hm : m = 0
  · subst hm
    obtain rfl : k = 0 := hc.2.2.resolve_right (by omega)
    cases sx
    · rw [fadd_zeros, Bool.and_false]
    · have hword := pack_unpack 0 x (by simp [hv])
      rw [hv, ← unpack_negZero, pack_unpack 0 _ (by simp [unpack_negZero])] at hword
      exact absurd hword.symm hne
  · exact fadd_zero_left neg sx 0 m k hm hc

/-- Settles O28: the exact weight, the weight of 0.1 computed, and with alpha = 0.0 the operand added to a signed zero. -/
theorem filterWeightsAndAlphaZero : Obligations.FilterWeightsAndAlphaZero := by
  refine ⟨fun alpha z h hlo hhi => orderKey_one_sub_exact h hlo hhi, by decide +kernel, by decide +kernel,
    (by decide +kernel : ∀ z ∈ orderKey (unpack 0x3FB999999999999A#64), _), one_sub_posZero,
    fun x s halpha hprev hx hne => ?_, fun s halpha hprev => ?_, fun x s halpha hprev => ?_⟩
  · obtain ⟨neg, m, k, hv⟩ := (isFinite_iff s.prev).1 hprev
    refine exec_filter_of_smoothed (unpack_ne_nan_of_isFinite hx) ?_
    rw [halpha, smoothed_posZero_of_fin hv, fadd_zero_unpack hx hne]
  · obtain ⟨neg, m, k, hv⟩ := (isFinite_iff s.prev).1 hprev
    rw [signBit_of_unpack_fin hv]
    have hsum : smoothed s.alpha s.prev 0x8000000000000000#64 = .fin neg 0 0 := by
      rw [halpha, smoothed_posZero_of_fin hv, unpack_negZero, fadd_zeros, Bool.and_true]
    cases neg
    · exact exec_filter_of_smoothed (by simp [unpack_posZero]) (hsum.trans unpack_posZero.symm)
    · exact exec_filter_of_smoothed (by simp [unpack_negZero]) (hsum.trans unpack_negZero.symm)
  · refine ⟨_, exec_filter x s, ?_⟩
    rw [isNan_iff, unpack_filterWord, halpha, smoothed_posZero_of_not_isFinite hprev]

/-! ### The source's example -/

/-- Serving a FILTER request first: its answer, then the other events on the state it leaves. -/
theorem serveAll_filter_cons {w : RequestWord} {x b : F64} {s : State} (hw : decode w = .ok (.filter x)) (hb : unpack b ≠ .nan)
    (h : smoothed s.alpha s.prev x = unpack b) (es : List HostEvent) :
    (serveAll s (.request w :: es)).2 = .ok b :: (serveAll ((s.withPrev b).withRsp (some (.ok b))) es).2 := by
  have hserve : serve (.request w) s = .next ((s.withPrev b).withRsp (some (.ok b))) := by
    rw [serve, serveRequest, hw]
    exact exec_filter_of_smoothed hb h
  simp [serveAll, hserve]

/-- Settles O32: three FILTER requests, each on the value the one before it answered. -/
theorem sourceSmootherExample : Obligations.SourceSmootherExample := by
  intro s halpha hprev
  rw [serveAll_filter_cons (x := 0x4024000000000000#64) (b := 0x4014000000000000#64) (by decide +kernel) (by decide +kernel)
      (by rw [halpha, hprev]; decide +kernel),
    serveAll_filter_cons (x := 0x4034000000000000#64) (b := 0x4029000000000000#64) (by decide +kernel) (by decide +kernel)
      (by simp only [withRsp_alpha, withPrev_alpha, withRsp_prev, withPrev_prev, halpha]; decide +kernel),
    serveAll_filter_cons (x := 0x4034000000000000#64) (b := 0x4030400000000000#64) (by decide +kernel) (by decide +kernel)
      (by simp only [withRsp_alpha, withPrev_alpha, withRsp_prev, withPrev_prev, halpha]; decide +kernel)]
  rfl

/-! ### The check of ALPHA -/

theorem orderKey_posZero : orderKey (unpack posZero) = some 0 := by
  rw [unpack_posZero, orderKey, units, Nat.zero_mul]
  rfl

theorem orderKey_one : orderKey one = some (oneUnits : Int) := by
  rw [one_eq, orderKey, one_units]
  rfl

theorem alphaLegal_iff (alpha : F64) :
    alphaLegal alpha = true ↔ ∃ z, orderKey (unpack alpha) = some z ∧ 0 ≤ z ∧ z ≤ oneUnits := by
  rw [alphaLegal, Bool.and_eq_true, fge_iff, fge_iff, orderKey_posZero, orderKey_one]
  constructor
  · rintro ⟨⟨z, _, hz, ⟨⟩, hlo⟩, ⟨_, z', ⟨⟩, hz', hhi⟩⟩
    cases hz.symm.trans hz'
    exact ⟨z, hz, hlo, hhi⟩
  · rintro ⟨z, hz, hlo, hhi⟩
    exact ⟨⟨z, 0, hz, rfl, hlo⟩, ⟨_, z, rfl, hz, hhi⟩⟩

theorem alphaLegal_of_isNan {alpha : F64} (h : isNan alpha = true) : alphaLegal alpha = false := by
  rw [← Bool.not_eq_true, alphaLegal_iff, (isNan_iff alpha).1 h]
  rintro ⟨z, hz, -⟩
  cases hz

/-- The check of ALPHA is the first, and no other check has its refusal. -/
theorem settingsError_eq_invalidFilterParameter_iff (c : Settings) :
    settingsError c = some .invalidFilterParameter ↔ alphaLegal c.alpha = false := by
  rw [settingsError]
  cases alphaLegal c.alpha with
  | false => simp
  | true =>
    simp only [Bool.not_true, Bool.false_eq_true, if_false]
    split_ifs <;> simp

theorem checkParams_eq_invalidFilterParameter_iff (p : Params) :
    checkParams p = .error .invalidFilterParameter ↔ alphaLegal p.alpha = false := by
  obtain ⟨alpha, scaleT, _ | k, coeffT⟩ := p
  · cases h : alphaLegal alpha <;> simp [checkParams, h]
  · rw [← settingsError_eq_invalidFilterParameter_iff ⟨alpha, ⟨scaleT, k, coeffT⟩⟩]
    simp only [checkParams]
    cases settingsError ⟨alpha, ⟨scaleT, k, coeffT⟩⟩ <;> simp

theorem build_error_iff (p : Params) (e : BuildError) : build p = .error e ↔ checkParams p = .error e := by
  rw [build]
  cases checkParams p <;> simp

/-- A build that succeeds has accepted ALPHA and holds the value given. -/
theorem alpha_of_build_ok {p : Params} {s : State} (h : build p = .ok s) : alphaLegal p.alpha = true ∧ s.alpha = p.alpha := by
  obtain ⟨c, hc, rfl⟩ := (build_ok_iff p s).1 h
  obtain ⟨k, -, rfl, hlegal⟩ := (checkParams_ok_iff p c).1 hc
  exact ⟨((settings_legal_iff _).1 hlegal).1, rfl⟩

/-- Settles O37: the two comparisons of the check are those of the interval, and only that check gives this refusal. -/
theorem alphaIsCheckedNotClamped : Obligations.AlphaIsCheckedNotClamped :=
  ⟨alphaLegal_iff, fun p => ((build_error_iff p _).trans (checkParams_eq_invalidFilterParameter_iff p)).symm,
    fun _ _ => alpha_of_build_ok, by decide +kernel, by decide +kernel, fun _ => alphaLegal_of_isNan⟩

end Sys2Proof.Machine
end

section
/-! PROOFS. The errors of a request (spec/60_exceptions.md): which request raises which (R162, R163, R165), and that an error writes
nothing and is over with its request (R161, R166). -/

namespace Sys2Proof.Machine

/-! ### What `op` says of the decoded operation -/

theorem decode_error_iff (w : RequestWord) : (∃ d, decode w = .error d) ↔ 5 ≤ (w.extractLsb' 0 3).toNat := by
  change (∃ d, decodeRequest (Request.ofWord w) = .error d) ↔ 5 ≤ (Request.ofWord w).op.toNat
  rcases decodeRequest_cases (Request.ofWord w) with ⟨hop, hd⟩ | ⟨hop, hd⟩ | ⟨hop, hd⟩ | ⟨hop, hd⟩ | ⟨hop, hd⟩ |
    ⟨hop | hop | hop, hd⟩
  all_goals simp [hop, hd]

theorem decode_correct_iff (w : RequestWord) (frame : Frame) (t : TcCode) :
    decode w = .ok (.correct frame t) ↔
      w.extractLsb' 0 3 = 0b011#3 ∧ w.extractLsb' 32 32 = frame ∧ w.extractLsb' 8 3 = t := by
  change decodeRequest (Request.ofWord w) = _ ↔
    (Request.ofWord w).op = _ ∧ (Request.ofWord w).frame = frame ∧ (Request.ofWord w).tcType = t
  rcases decodeRequest_cases (Request.ofWord w) with ⟨hop, hd⟩ | ⟨hop, hd⟩ | ⟨hop, hd⟩ | ⟨hop, hd⟩ | ⟨hop, hd⟩ |
    ⟨hop | hop | hop, hd⟩
  all_goals simp [hop, hd]

/-! ### Which request raises which error -/

/-- A table is absent for every code but K's, and for T's only where COEFF(T) is (R72). -/
theorem storeEntry_eq_none_iff (st : Store) (t : TcCode) :
    storeEntry st t = none ↔ 2 ≤ t.toNat ∨ (t.toNat = 1 ∧ st.coeffT = none) := by
  by_cases hK : t = 0b000#3
  · subst hK
    simp [storeEntry_typeK]
  by_cases hT : t = 0b001#3
  · subst hT
    simp [storeEntry_typeT]
  · have h2 : 2 ≤ t.toNat := by bv_omega
    simp [storeEntry_of_ne hK hT, h2]

/-- CORRECT with an absent table raises UnsupportedThermocoupleType; every other operation has a result. -/
theorem exec_answer_cases (i : Instr) (s : State) :
    (∃ frame t, i = .correct frame t ∧ storeEntry s.store t = none ∧ exec i s = raise .unsupportedThermocoupleType s) ∨
    ((∀ frame t, i = .correct frame t → storeEntry s.store t ≠ none) ∧ ∃ u b, exec i s = .next u ∧ u.rsp = some (.ok b)) := by
  cases i with
  | decodeInternal frame => exact .inr ⟨nofun, _, _, rfl, rfl⟩
  | decodeTc frame => exact .inr ⟨nofun, _, _, rfl, rfl⟩
  | classify frame => exact .inr ⟨nofun, _, _, rfl, rfl⟩
  | filter x => exact .inr ⟨nofun, _, _, rfl, rfl⟩
  | correct frame t =>
    cases hentry : storeEntry s.store t with
    | none => exact .inl ⟨frame, t, rfl, hentry, execCorrect_of_storeEntry_none hentry frame⟩
    | some entry =>
      obtain ⟨-, b, -, hexec, -⟩ := exec_correct_of_storeEntry hentry frame
      refine .inr ⟨?_, _, b, hexec, rfl⟩
      rintro _ _ ⟨⟩
      simp [hentry]

theorem serveRequest_of_decode_ok {w : RequestWord} {i : Instr} (h : decode w = .ok i) (s : State) :
    serveRequest w s = exec i s := by
  simp only [serveRequest, h]

/-- Everything a request can be answered with: one of the two errors, for the one reason each has, or a result. -/
theorem serveRequest_cases (w : RequestWord) (s : State) :
    ((∃ d, decode w = .error d) ∧ serveRequest w s = raise .illegalOperation s) ∨
    (∃ frame t, decode w = .ok (.correct frame t) ∧ storeEntry s.store t = none ∧
      serveRequest w s = raise .unsupportedThermocoupleType s) ∨
    ((∃ i, decode w = .ok i) ∧ (∀ frame t, decode w = .ok (.correct frame t) → storeEntry s.store t ≠ none) ∧
      ∃ u b, serveRequest w s = .next u ∧ u.rsp = some (.ok b)) := by
  cases hw : decode w with
  | error d => exact .inl ⟨⟨d, rfl⟩, serveRequest_of_decode_error hw s⟩
  | ok i =>
    rw [serveRequest_of_decode_ok hw]
    rcases exec_answer_cases i s with ⟨frame, t, rfl, hentry, hexec⟩ | ⟨hpresent, hanswer⟩
    · exact .inr (.inl ⟨frame, t, rfl, hentry, hexec⟩)
    · exact .inr (.inr ⟨⟨i, rfl⟩, fun frame t hi => hpresent frame t (Except.ok.inj hi), hanswer⟩)

/-! ### An error writes nothing -/

/-- A request answered with an error is one that raises it: only the response port is driven. -/
theorem serveRequest_eq_raise {w : RequestWord} {s t : State} {e : RunError} (h : serveRequest w s = .next t)
    (he : t.rsp = some (.error e)) : serveRequest w s = raise e s := by
  rcases serveRequest_cases w s with ⟨-, hs⟩ | ⟨-, -, -, -, hs⟩ | ⟨-, -, u, b, hs, hok⟩
  all_goals cases hs.symm.trans h
  · cases he
    exact hs
  · cases he
    exact hs
  · cases hok.symm.trans he

theorem eq_withRsp_of_error {w : RequestWord} {s t : State} {e : RunError} (h : serveRequest w s = .next t)
    (he : t.rsp = some (.error e)) : t = s.withRsp (some (.error e)) :=
  Host.Outcome.next.inj (h.symm.trans (serveRequest_eq_raise h he))

/-- Settles O34: an error leaves the state it found, with the error on the response port. -/
theorem errorsArePrecise : Obligations.ErrorsArePrecise := by
  intro w s t e h he
  obtain rfl := eq_withRsp_of_error h he
  exact ⟨rfl, rfl, rfl, rfl, rfl, rfl, rfl⟩

/-- Settles O18: the store lookup of CORRECT, and the one case of `serveRequest_cases` that answers this error. -/
theorem onlyCorrectRaisesUnsupportedType : Obligations.OnlyCorrectRaisesUnsupportedType := by
  refine ⟨fun frame t s habsent => execCorrect_of_storeEntry_none ((storeEntry_eq_none_iff s.store t).2 habsent) frame,
    fun w s u h he => ?_⟩
  rcases serveRequest_cases w s with ⟨-, hs⟩ | ⟨frame, t, hw, hentry, -⟩ | ⟨-, -, v, b, hs, hok⟩
  · cases hs.symm.trans h
    cases he
  · exact ⟨frame, t, hw, (storeEntry_eq_none_iff s.store t).1 hentry⟩
  · cases hs.symm.trans h
    cases hok.symm.trans he

/-! ### The next request -/

/-- No operation reads the response port, and each drives it anew. -/
theorem exec_withRsp (i : Instr) (s : State) (r : Option Response) : exec i (s.withRsp r) = exec i s := by
  cases i with
  | decodeInternal frame => rfl
  | decodeTc frame => rfl
  | classify frame => rfl
  | correct frame t => rfl
  | filter x => rfl

theorem serveRequest_withRsp (w : RequestWord) (s : State) (r : Option Response) :
    serveRequest w (s.withRsp r) = serveRequest w s := by
  cases hw : decode w with
  | error d => rw [serveRequest_of_decode_error hw, serveRequest_of_decode_error hw]; rfl
  | ok i => rw [serveRequest_of_decode_ok hw, serveRequest_of_decode_ok hw, exec_withRsp]

/-- Settles O35: all that an error leaves behind is its response, which no request reads. -/
theorem errorsDoNotTouchTheNextRequest : Obligations.ErrorsDoNotTouchTheNextRequest := by
  intro w w' s t e h he
  rw [eq_withRsp_of_error h he, serveRequest_withRsp]

/-! ### The status of every request -/

/-- R163's condition, read off the word's fields. -/
theorem decode_correct_absent_iff (w : RequestWord) (st : Store) :
    (∃ frame t, decode w = .ok (.correct frame t) ∧ storeEntry st t = none) ↔
      w.extractLsb' 0 3 = 0b011#3 ∧ storeEntry st (w.extractLsb' 8 3) = none := by
  simp only [decode_correct_iff]
  constructor
  · rintro ⟨_, _, ⟨hop, rfl, rfl⟩, hentry⟩
    exact ⟨hop, hentry⟩
  · rintro ⟨hop, hentry⟩
    exact ⟨_, _, ⟨hop, rfl, rfl⟩, hentry⟩

/-- Settles O36: `serveRequest_cases`, its conditions read off the word's fields; a build checks ALPHA first. -/
theorem statusOfEveryRequest : Obligations.StatusOfEveryRequest := by
  refine ⟨fun w s => ?_, fun p h => (build_error_iff p _).2 ((checkParams_eq_invalidFilterParameter_iff p).2 h),
    rfl, rfl, rfl, rfl, rfl⟩
  rw [← decode_error_iff, ← decode_correct_absent_iff]
  rcases serveRequest_cases w s with ⟨⟨d, hw⟩, hs⟩ | ⟨frame, t, hw, hentry, hs⟩ | ⟨⟨i, hw⟩, hpresent, u, b, hs, hok⟩
  · exact ⟨_, _, hs, rfl, by simp [rspStatus, errorStatus, hw], by simp [rspStatus, errorStatus, hw], nofun, fun _ => rfl⟩
  · exact ⟨_, _, hs, rfl, by simp [rspStatus, errorStatus, hw], by simp [rspStatus, errorStatus, hw, hentry],
      nofun, fun _ => rfl⟩
  · have hnone : ¬ ∃ frame t, decode w = .ok (.correct frame t) ∧ storeEntry s.store t = none :=
      fun ⟨frame, t, hw', hentry⟩ => hpresent frame t hw' hentry
    exact ⟨u, _, hs, hok, by simp [rspStatus, hw], by simp [rspStatus, hnone], nofun, fun h => absurd rfl h⟩

end Sys2Proof.Machine
end

section
/-! PROOFS. Reset and hazards (spec/70_reset_and_hazards.md): a NaN in `prev` persists until a reset (R193), a reset writes +0.0 and
nothing else and falls between requests (R180, R182), the state after it (R183), and the checks of a build in order (R185). -/

namespace Sys2Proof.Machine

/-! ### Infinities in the smoother's arithmetic -/

/-- A factor gives both infinities NaN, or gives each an infinity with the factor's sign applied. -/
theorem fmul_inf_cases (w : Fp) :
    (∀ neg, fmul w (.inf neg) = .nan) ∨ ∃ flip : Bool, ∀ neg, fmul w (.inf neg) = .inf (flip != neg) := by
  cases w with
  | nan => exact .inl fun _ => rfl
  | inf s => exact .inr ⟨s, fun _ => rfl⟩
  | fin s m k =>
    by_cases hm : m = 0
    · exact .inl fun _ => if_pos hm
    · exact .inr ⟨s, fun _ => if_neg hm⟩

theorem fadd_inf_right_cases (a : Fp) (neg : Bool) : fadd a (.inf neg) = .nan ∨ fadd a (.inf neg) = .inf neg := by
  cases a with
  | nan => exact .inl rfl
  | fin s m k => exact .inr rfl
  | inf s =>
    by_cases hs : s = neg
    · subst hs
      exact .inr (if_pos rfl)
    · exact .inl (if_neg hs)

theorem fadd_inf_of_ne {s t : Bool} (h : s ≠ t) : fadd (.inf s) (.inf t) = .nan := if_neg h

/-- What is not below zero never flips the sign of an infinity. -/
theorem fmul_inf_of_nonneg {v : Fp} {z : Int} (hv : orderKey v = some z) (hz : 0 ≤ z) (neg : Bool) :
    fmul v (.inf neg) = .nan ∨ fmul v (.inf neg) = .inf neg := by
  cases v with
  | nan => cases hv
  | inf s =>
    cases hv
    cases s with
    | false => exact .inr (by simp [fmul])
    | true =>
      have hpos := Nat.two_pow_pos infinityExponent
      simp only [signed, if_true] at hz
      omega
  | fin s m k =>
    by_cases hm : m = 0
    · exact .inl (if_pos hm)
    · cases hv
      cases s with
      | false => exact .inr (by simp [fmul, hm])
      | true =>
        have hpos : 0 < units m k := Nat.mul_pos (Nat.pos_of_ne_zero hm) (Nat.two_pow_pos k)
        simp only [signed, if_true] at hz
        omega

theorem unpack_packFields_inf (neg : Bool) : unpack (packFields neg 2047 0) = .inf neg := unpack_pack 0 (.inf neg) trivial

/-! ### When FILTER answers NaN -/

theorem isNan_filterWord_iff (alpha prev x : F64) : isNan (filterWord alpha prev x) = true ↔ smoothed alpha prev x = .nan := by
  rw [isNan_iff, unpack_filterWord]

theorem isNan_filterWord_of_operand {x : F64} (h : isNan x = true) (alpha prev : F64) :
    isNan (filterWord alpha prev x) = true := by
  rw [isNan_filterWord_iff, smoothed, (isNan_iff x).1 h, fmul_nan_right, fadd_nan_right]

theorem isNan_filterWord_of_prev {prev : F64} (h : isNan prev = true) (alpha x : F64) :
    isNan (filterWord alpha prev x) = true := by
  rw [isNan_filterWord_iff, smoothed, (isNan_iff prev).1 h, fmul_nan_right, fadd_nan_left]

/-- Under a legal alpha the first infinity leaves NaN or an infinity of its product's sign; alpha keeps that sign, and the
opposite infinity's product has the other one. -/
theorem isNan_filterWord_opposite_infinities {alpha : F64} (h : alphaLegal alpha = true) (prev : F64) (neg : Bool) :
    isNan (filterWord alpha (filterWord alpha prev (packFields neg 2047 0)) (packFields (!neg) 2047 0)) = true := by
  obtain ⟨z, hz, hnonneg, -⟩ := (alphaLegal_iff alpha).1 h
  rw [isNan_filterWord_iff, smoothed, unpack_filterWord, smoothed, unpack_packFields_inf, unpack_packFields_inf]
  rcases fmul_inf_cases (fsub one (unpack alpha)) with hnan | ⟨flip, hflip⟩
  · rw [hnan, hnan, fadd_nan_right]
  · rw [hflip, hflip]
    rcases fadd_inf_right_cases (fmul (unpack alpha) (unpack prev)) (flip != neg) with hfirst | hfirst
    · rw [hfirst, fmul_nan_right, fadd_nan_left]
    · rw [hfirst]
      rcases fmul_inf_of_nonneg hz hnonneg (flip != neg) with hprod | hprod
      · rw [hprod, fadd_nan_left]
      · rw [hprod, fadd_inf_of_ne (by simp)]

/-! ### A NaN in `prev` -/

theorem serve_keeps_nan_prev {e : HostEvent} {s t : State} (hnan : isNan s.prev = true) (he : HostEvent.isReset e = false)
    (h : serve e s = .next t) : isNan t.prev = true := by
  rcases serve_cases e s with ⟨r, -, -, hs⟩ | ⟨x, -, -, hs⟩ | ⟨-, hreset, -⟩
  · cases hs.symm.trans h
    exact hnan
  · cases hs.symm.trans h
    exact isNan_filterWord_of_prev hnan s.alpha x
  · cases he.symm.trans hreset

theorem serveAll_keeps_nan_prev (es : List HostEvent) {s : State} (hnan : isNan s.prev = true)
    (hes : ∀ e ∈ es, HostEvent.isReset e = false) : isNan (serveAll s es).1.prev = true := by
  induction es generalizing s with
  | nil => exact hnan
  | cons e es ih =>
    obtain ⟨t, ht, hall⟩ := serveAll_cons s e es
    obtain ⟨he, hes⟩ := List.forall_mem_cons.1 hes
    rw [hall]
    exact ih (serve_keeps_nan_prev hnan he ht) hes

theorem serve_of_isReset {e : HostEvent} (h : HostEvent.isReset e = true) (s : State) :
    serve e s = .next ((s.withPrev posZero).withRsp none) := by
  cases e with
  | request w => cases h
  | reset => rfl
  | requestCutByReset w => rfl

/-- Settles O30: NaN passes through every operation of the smoother's sum, opposite infinities meet in it, and by induction on the
events only a reset writes `prev` anything else. -/
theorem nanPersistsUntilReset : Obligations.NanPersistsUntilReset := by
  refine ⟨fun x s t hx h => ?_, fun s t u neg halpha ht hu => ?_, fun s es hnan hes => ?_, fun s t e he h => ?_⟩
  · cases (exec_filter x s).symm.trans h
    exact isNan_filterWord_of_operand hx s.alpha s.prev
  · cases (exec_filter _ s).symm.trans ht
    cases (exec_filter _ _).symm.trans hu
    exact isNan_filterWord_opposite_infinities halpha s.prev neg
  · have hprev := serveAll_keeps_nan_prev es hnan hes
    exact ⟨hprev, fun w x hw =>
      ⟨_, (serveRequest_of_decode_ok hw _).trans (exec_filter x _), isNan_filterWord_of_prev hprev _ x⟩⟩
  · cases (serve_of_isReset he s).symm.trans h
    rfl

/-! ### What a reset does, and when -/

/-- A reset gives no response, so only the events after it add any. -/
theorem serveAll_reset_cons {e : HostEvent} (he : HostEvent.isReset e = true) (s : State) (es : List HostEvent) :
    serveAll s (e :: es) = serveAll ((s.withPrev posZero).withRsp none) es := by
  rw [serveAll, serve_of_isReset he]
  rfl

/-- Settles O42: the events split at the reset, which does the same whether it cuts off a request or not. -/
theorem resetsFallBetweenRequests : Obligations.ResetsFallBetweenRequests := by
  intro s before after w
  have hsplit : ∀ e, HostEvent.isReset e = true → serveAll s (before ++ e :: after) =
      ((serveAll (((serveAll s before).1.withPrev posZero).withRsp none) after).1,
        (serveAll s before).2 ++ (serveAll (((serveAll s before).1.withPrev posZero).withRsp none) after).2) := by
    intro e he
    rw [serveAll_append, serveAll_reset_cons he]
  exact ⟨(hsplit _ rfl).trans (hsplit _ rfl).symm, _, serve_of_isReset rfl _, hsplit _ rfl⟩

/-- Settles O41: the step serves the reset on the state with that event taken off. -/
theorem resetClearsOnlyPrev : Obligations.ResetClearsOnlyPrev := by
  intro s rest hin
  have hstep : step s = .next (((s.withInputs rest).withPrev posZero).withRsp none) :=
    (step_of_inputs_cons hin).trans (serve_of_isReset rfl _)
  exact ⟨_, hstep, rfl, rfl, rfl, rfl, rfl⟩

/-- Settles O40: the reset state is the power-on state of the built settings, which are legal by construction. -/
theorem resetStateAsGiven : Obligations.ResetStateAsGiven := ⟨rfl, rfl, rfl, Config.built.legal⟩

/-! ### The checks of a build, in order -/

theorem build_of_coeffK_none {p : Params} (halpha : alphaLegal p.alpha = true) (hk : p.coeffK = none) :
    build p = .error .coeffKAbsent := by
  rw [build_error_iff, checkParams, hk]
  simp [halpha]

section
variable {p : Params} {k : Table} (hk : p.coeffK = some k)
include hk

/-- With COEFF(K) present, a refusal is the first check that the host's settings fail. -/
theorem build_of_settingsError {e : BuildError} (h : settingsError ⟨p.alpha, ⟨p.scaleT, k, p.coeffT⟩⟩ = some e) :
    build p = .error e := by
  rw [build_error_iff, checkParams, hk]
  simp only [h]

/-- With COEFF(K) present, legal settings are taken as the host gives them. -/
theorem build_of_settings_legal (h : (⟨p.alpha, ⟨p.scaleT, k, p.coeffT⟩⟩ : Settings).legal = true) :
    build p = .ok (State.powerOn ⟨p.alpha, ⟨p.scaleT, k, p.coeffT⟩⟩) :=
  (build_ok_iff p _).2 ⟨_, (checkParams_ok_iff p _).2 ⟨k, hk, rfl, h⟩, rfl⟩

end

/-- Settles O38: each refusal is the first check that fails, the earlier ones having passed. -/
theorem buildChecksInOrder : Obligations.BuildChecksInOrder := by
  refine fun p => ⟨fun halpha => (build_error_iff p _).2 ((checkParams_eq_invalidFilterParameter_iff p).2 halpha),
    fun halpha => ⟨build_of_coeffK_none halpha, fun k hk => ⟨fun hK => ?_, fun hK => ⟨fun ht hscale => ?_,
      fun t ht => ⟨fun hscale => ?_, fun hscale hT => ?_, fun hscale hT => ?_⟩⟩⟩⟩⟩
  · exact build_of_settingsError hk (by simp [settingsError, halpha, hK])
  · rw [build_of_settings_legal hk ((settings_legal_iff _).2 ⟨halpha, hK, hscale, by rw [ht]; rfl⟩), ht]
  · exact build_of_settingsError hk (by simp [settingsError, halpha, hK, hscale])
  · exact build_of_settingsError hk (by simp [settingsError, halpha, hK, hscale, ht, coeffTLegal, hT])
  · rw [build_of_settings_legal hk ((settings_legal_iff _).2 ⟨halpha, hK, hscale, by rw [ht]; exact hT⟩), ht]

end Sys2Proof.Machine
end

section
/-! PROOFS. Decoding undoes encoding for every operation (spec/30_encoding.md section 1), and a step runs the operation its word
decodes to (spec/10_state.md section 1). -/

namespace Sys2Proof.Machine

/-- The record of an operation selects that operation: its op is the operation's row of R62, and the fields that row reads are its
operands. -/
theorem decodeRequest_toRequest (i : Instr) : decodeRequest i.toRequest = .ok i := by
  cases i with
  | decodeInternal frame => exact decodeRequest_of_op_decodeInternal rfl
  | decodeTc frame => exact decodeRequest_of_op_decodeTc rfl
  | classify frame => exact decodeRequest_of_op_classify rfl
  | correct frame tcType => exact decodeRequest_of_op_correct rfl
  | filter x => exact decodeRequest_of_op_filter rfl

/-- Settles O1: the word carries the record, and the record selects the operation. -/
theorem decodeOfEncodeIsTheInstruction : Obligations.DecodeOfEncodeIsTheInstruction := fun i _ =>
  (decode_toWord i.toRequest).trans (decodeRequest_toRequest i)

/-- Settles O2: one word per row of R62 and one of a reserved op, with the reserved bits or unread fields set in some. -/
theorem specWordsDecodeAsWritten : Obligations.SpecWordsDecodeAsWritten := by
  refine ⟨?_, ?_, ?_, ?_, ?_, ?_⟩ <;> decide

theorem decodeTableWord_eq_some_iff (nbits w : Nat) (i : Instr) :
    decodeTableWord nbits w = some i ↔ decode (tableWord nbits w) = .ok i := by
  rw [decodeTableWord]
  cases decode (tableWord nbits w) <;> simp

theorem step_of_request {s : State} {w : RequestWord} {rest : List HostEvent} {i : Instr} (hin : s.inputs = .request w :: rest)
    (hw : decode w = .ok i) : step s = exec i (s.withInputs rest) :=
  (step_of_inputs_cons hin).trans (serveRequest_of_decode_ok hw _)

/-- Settles O43: the step serves the head event, and taking off the request that `withFetchWord` put there gives the state back. -/
theorem stepRunsTheDecodedInstruction : Obligations.StepRunsTheDecodedInstruction :=
  ⟨fun _ _ _ _ hin hw => step_of_request hin hw,
    fun s nbits w i h => step_of_request (s := s.withFetchWord nbits w) rfl ((decodeTableWord_eq_some_iff nbits w i).1 h)⟩

end Sys2Proof.Machine
end

section
/-! PROOFS. The frame of the operations (spec/10_state.md section 4, spec/20_memory.md R46), and the invariant: it holds of what is
built, every event keeps it, and every request is answered (spec/70_reset_and_hazards.md R181, spec/00_scope.md R19). -/

namespace Sys2Proof.Machine

/-! ### The frame of an operation -/

/-- Settles O47: an operation drives the response port, and FILTER writes `prev` besides. -/
theorem operationsChangeOnlyPrevAndResponse : Obligations.OperationsChangeOnlyPrevAndResponse := by
  intro i s
  rcases exec_cases i s with ⟨r, h, -⟩ | ⟨x, rfl, h⟩
  · exact ⟨_, r, h, rfl, rfl, rfl, rfl, fun _ => rfl⟩
  · exact ⟨_, _, h, rfl, rfl, rfl, rfl, fun hi => absurd rfl (hi x)⟩

/-- Settles O48: the first answer is all that the repeated operation finds changed, and no operation reads it. -/
theorem requestsButFilterAreIdempotent : Obligations.RequestsButFilterAreIdempotent := by
  intro i s hi
  rcases exec_cases i s with ⟨r, h, -⟩ | ⟨x, hx, -⟩
  · exact ⟨r, h, (exec_withRsp i s _).trans h⟩
  · exact absurd hx (hi x)

/-- Settles O49: with no event the state is the next one, and every event is served. -/
theorem everyStepCompletes : Obligations.EveryStepCompletes := by
  intro s
  cases hin : s.inputs with
  | nil => exact ⟨s, step_of_inputs_nil hin⟩
  | cons e rest =>
    obtain ⟨t, ht, -⟩ := serve_next e (s.withInputs rest)
    exact ⟨t, (step_of_inputs_cons hin).trans ht⟩

/-! ### No answer is a signalling NaN -/

theorem quietIfNan_of_not_isNan {b : F64} (h : isNan b = false) : QuietIfNan b := fun hnan => by simp [h] at hnan

/-- The result of CLASSIFY is a small number, far below the exponent field. -/
theorem isNan_zext64_kindCode (k : FaultKind) : isNan (zext64 (kindCode k)) = false := by
  cases k <;> decide

theorem isNan_posZero : isNan posZero = false := by decide

theorem quietIfNan_posZero : QuietIfNan posZero := quietIfNan_of_not_isNan isNan_posZero

/-- A result is a packed canonical value, or the code of a fault kind. -/
theorem exec_answers_quiet {i : Instr} {s t : State} {b : F64} (h : exec i s = .next t) (hb : t.rsp = some (.ok b)) :
    QuietIfNan b := by
  cases i with
  | decodeInternal frame =>
    cases (exec_decodeInternal frame s 0).symm.trans h
    cases hb
    exact quietIfNan_pack _ _ (isCodeOver_internalCelsius frame).canonical
  | decodeTc frame =>
    cases (exec_decodeTc frame s 0).symm.trans h
    cases hb
    exact quietIfNan_pack _ _ (isCodeOver_approxCelsius frame).canonical
  | classify frame =>
    cases (exec_classify_of_kind rfl s).symm.trans h
    cases hb
    exact quietIfNan_of_not_isNan (isNan_zext64_kindCode _)
  | correct frame t =>
    cases hentry : storeEntry s.store t with
    | none =>
      cases (execCorrect_of_storeEntry_none hentry frame).symm.trans h
      cases hb
    | some entry =>
      obtain ⟨-, b', -, hexec, hquiet, -⟩ := exec_correct_of_storeEntry hentry frame
      cases hexec.symm.trans h
      cases hb
      exact hquiet
  | filter x =>
    cases (exec_filter x s).symm.trans h
    cases hb
    exact quietIfNan_pack _ _ (fadd_canonical _ _)

/-- Of the events only a request that decodes to an operation has a result. -/
theorem serve_answers_quiet {e : HostEvent} {s t : State} {b : F64} (h : serve e s = .next t) (hb : t.rsp = some (.ok b)) :
    QuietIfNan b := by
  cases e with
  | reset => cases h; cases hb
  | requestCutByReset w => cases h; cases hb
  | request w =>
    cases hw : decode w with
    | error d => cases (serveRequest_of_decode_error hw s).symm.trans h; cases hb
    | ok i => exact exec_answers_quiet ((serveRequest_of_decode_ok hw s).symm.trans h) hb

/-! ### The invariant -/

theorem inv_powerOn {c : Settings} (h : c.legal = true) : (State.powerOn c).Inv := ⟨h, quietIfNan_posZero, nofun⟩

/-- The events still to come are no part of the invariant. -/
theorem inv_withInputs {s : State} (h : s.Inv) (es : List HostEvent) : (s.withInputs es).Inv := h

theorem serve_keeps_quiet_prev {e : HostEvent} {s t : State} (hprev : QuietIfNan s.prev) (h : serve e s = .next t) :
    QuietIfNan t.prev := by
  by_cases heq : t.prev = s.prev
  · rw [heq]
    exact hprev
  · rcases serve_changes_prev h heq with ⟨-, -, hrsp⟩ | ⟨-, hzero⟩
    · exact serve_answers_quiet h hrsp
    · rw [hzero]
      exact quietIfNan_posZero

theorem serve_settings {e : HostEvent} {s t : State} (h : serve e s = .next t) : t.settings = s.settings := by
  obtain ⟨u, hu, hset, -⟩ := serve_next e s
  cases hu.symm.trans h
  exact hset

theorem serve_keeps_legal {e : HostEvent} {s t : State} (hlegal : s.Legal) (h : serve e s = .next t) : t.Legal := by
  rw [State.Legal, serve_settings h]
  exact hlegal

theorem serve_keeps_inv {e : HostEvent} {s t : State} (hinv : s.Inv) (h : serve e s = .next t) : t.Inv := by
  obtain ⟨hlegal, hprev, -⟩ := hinv
  exact ⟨serve_keeps_legal hlegal h, serve_keeps_quiet_prev hprev h, fun _ hb => serve_answers_quiet h hb⟩

/-- Settles O51: a step does nothing or serves an event, and every event keeps each of the invariant's three parts. -/
theorem everyStepKeepsTheInvariant : Obligations.EveryStepKeepsTheInvariant := by
  intro s t hinv h
  cases hin : s.inputs with
  | nil =>
    cases (step_of_inputs_nil hin).symm.trans h
    exact hinv
  | cons e rest =>
    rw [step_of_inputs_cons hin] at h
    exact serve_keeps_inv (inv_withInputs hinv rest) h

/-- Settles O52: the reset state is the power-on state of the built settings, which are legal by construction. -/
theorem resetMeetsTheInvariant : Obligations.ResetMeetsTheInvariant := inv_powerOn Config.built.legal

/-! ### Every request is answered -/

theorem serve_answers_unless_reset {e : HostEvent} {s t : State} (h : serve e s = .next t) :
    t.rsp.toList.length = if HostEvent.isReset e then 0 else 1 := by
  rcases serve_cases e s with ⟨r, -, he, hs⟩ | ⟨x, -, he, hs⟩ | ⟨-, he, hs⟩
  all_goals
    cases hs.symm.trans h
    rw [he]
    rfl

theorem serveAll_keeps_inv (es : List HostEvent) {s : State} (h : s.Inv) : (serveAll s es).1.Inv := by
  induction es generalizing s with
  | nil => exact h
  | cons e es ih =>
    obtain ⟨t, ht, hall⟩ := serveAll_cons s e es
    rw [hall]
    exact ih (serve_keeps_inv h ht)

theorem length_responses (s : State) (es : List HostEvent) :
    (serveAll s es).2.length = es.countP (fun e => !HostEvent.isReset e) := by
  induction es generalizing s with
  | nil => rfl
  | cons e es ih =>
    obtain ⟨t, ht, hall⟩ := serveAll_cons s e es
    rw [hall, List.length_append, serve_answers_unless_reset ht, ih, List.countP_cons, Nat.add_comm]
    cases HostEvent.isReset e <;> rfl

/-- Settles O50: both by induction on the events. -/
theorem everyRequestHasItsResponse : Obligations.EveryRequestHasItsResponse := fun s es h =>
  ⟨serveAll_keeps_inv es h, length_responses s es⟩

theorem serveRequest_answers (w : RequestWord) (s : State) : ∃ t r, serveRequest w s = .next t ∧ t.rsp = some r := by
  rcases serveRequest_cases w s with ⟨-, h⟩ | ⟨-, -, -, -, h⟩ | ⟨-, -, u, b, h, hb⟩
  · exact ⟨_, _, h, rfl⟩
  · exact ⟨_, _, h, rfl⟩
  · exact ⟨u, _, h, hb⟩

/-! ### What is built -/

/-- A reset with no event pending gives the power-on state of the settings in force (R181). -/
theorem reset_eq_powerOn {s : State} (h : s.inputs = []) : (s.withPrev posZero).withRsp none = State.powerOn s.settings := by
  cases s
  cases h
  rfl

/-- Everything a build that succeeds gives: the power-on state of the host's parameters, which are legal settings. -/
theorem build_ok_iff_legal (p : Params) (s : State) : build p = .ok s ↔
    ∃ k, p.coeffK = some k ∧ (⟨p.alpha, ⟨p.scaleT, k, p.coeffT⟩⟩ : Settings).legal = true ∧
      s = State.powerOn ⟨p.alpha, ⟨p.scaleT, k, p.coeffT⟩⟩ := by
  simp only [build_ok_iff, checkParams_ok_iff]
  constructor
  · rintro ⟨_, ⟨k, hk, rfl, hlegal⟩, rfl⟩
    exact ⟨k, hk, hlegal, rfl⟩
  · rintro ⟨k, hk, hlegal, rfl⟩
    exact ⟨_, ⟨k, hk, rfl, hlegal⟩, rfl⟩

/-- Settles O39: no event changes the settings or adds a pending event, and that is all that the reset state depends on. -/
theorem buildLeavesTheResetState : Obligations.BuildLeavesTheResetState := by
  intro p s es e hbuild he
  obtain ⟨k, -, hlegal, rfl⟩ := (build_ok_iff_legal p s).1 hbuild
  refine ⟨inv_powerOn hlegal, fun w => serveRequest_answers w _, ?_⟩
  obtain ⟨hset, hin⟩ := serveAll_settings (State.powerOn ⟨p.alpha, ⟨p.scaleT, k, p.coeffT⟩⟩) es
  rw [serve_of_isReset he, reset_eq_powerOn hin, hset, powerOn_settings]

/-- Settles O55: the checks a build makes are those of `settings_legal_iff`; a SCALE(T) that is not finite fails the third, with
the two before it passed. -/
theorem builtSettingsAreLegal : Obligations.BuiltSettingsAreLegal := by
  refine ⟨fun p s => ?_, fun p k halpha hk hK hscale => ?_, ?_⟩
  · simp only [build_ok_iff_legal, settings_legal_iff, coeffTLegal_iff]
    constructor
    · rintro ⟨k, hk, ⟨halpha, hK, hscale, hT⟩, hs⟩
      exact ⟨halpha, hscale, hT, k, hk, hK, hs⟩
    · rintro ⟨halpha, hscale, hT, k, hk, hK, hs⟩
      exact ⟨k, hk, ⟨halpha, hK, hscale, hT⟩, hs⟩
  · exact build_of_settingsError hk (by simp [settingsError, halpha, hK, hscale])
  · obtain ⟨-, -, hscale, -⟩ := (settings_legal_iff _).1 Config.built.legal
    exact hscale

end Sys2Proof.Machine
end

section
/-! PROOFS. The smoother over many inputs: its history after a reset (spec/43_smoother.md R145), and alpha = 1.0 (R143). -/

namespace Sys2Proof.Machine

/-! ### The history of `prev` -/

theorem history_nil (alpha y : F64) : history alpha y [] = y := rfl

theorem history_cons (alpha y x : F64) (xs : List F64) : history alpha y (x :: xs) = history alpha (filterWord alpha y x) xs := rfl

theorem history_append (alpha y : F64) (xs ys : List F64) :
    history alpha y (xs ++ ys) = history alpha (history alpha y xs) ys := List.foldl_append

theorem history_concat (alpha y x : F64) (xs : List F64) :
    history alpha y (xs ++ [x]) = filterWord alpha (history alpha y xs) x := history_append alpha y xs [x]

theorem alpha_serveAll (s : State) (es : List HostEvent) : (serveAll s es).1.alpha = s.alpha :=
  congrArg Settings.alpha (serveAll_settings s es).1

/-- What an event that is no reset does to `prev`: a FILTER request adds its operand to the history, another leaves it. -/
theorem serve_prev_eq_history {e : HostEvent} {s t : State} (he : HostEvent.isReset e = false) (h : serve e s = .next t) :
    t.prev = history s.alpha s.prev (filterOperand e).toList := by
  rcases serve_cases e s with ⟨r, hop, -, hs⟩ | ⟨x, hop, -, hs⟩ | ⟨-, hreset, -⟩
  · cases hs.symm.trans h
    rw [hop]
    rfl
  · cases hs.symm.trans h
    rw [hop]
    rfl
  · cases he.symm.trans hreset

/-- Between resets `prev` is the history of the FILTER operands, from the value it started with. -/
theorem serveAll_prev_eq_history (es : List HostEvent) (hes : ∀ e ∈ es, HostEvent.isReset e = false) (s : State) :
    (serveAll s es).1.prev = history s.alpha s.prev (es.filterMap filterOperand) := by
  induction es generalizing s with
  | nil => rfl
  | cons e es ih =>
    obtain ⟨he, hes⟩ := List.forall_mem_cons.1 hes
    obtain ⟨t, ht, hall⟩ := serveAll_cons s e es
    have halpha : t.alpha = s.alpha := congrArg Settings.alpha (serve_settings ht)
    have hops : (e :: es).filterMap filterOperand = (filterOperand e).toList ++ es.filterMap filterOperand := by
      rw [List.filterMap_cons]
      cases filterOperand e <;> rfl
    rw [hall, ih hes, serve_prev_eq_history he ht, halpha, hops, history_append]

theorem prev_after_reset (s : State) (before after : List HostEvent) (hes : ∀ e ∈ after, HostEvent.isReset e = false) :
    (serveAll s (before ++ .reset :: after)).1.prev = history s.alpha posZero (after.filterMap filterOperand) := by
  rw [serveAll_append, serveAll_reset_cons rfl, serveAll_prev_eq_history after hes, withRsp_alpha, withPrev_alpha, alpha_serveAll,
    withRsp_prev, withPrev_prev]

/-- The last response of events that end in a FILTER request is its answer on the state the others left. -/
theorem getLast?_responses_filter {w : RequestWord} {x : F64} (hw : decode w = .ok (.filter x)) (s : State) (es : List HostEvent) :
    (serveAll s (es ++ [.request w])).2.getLast? = some (.ok (filterWord s.alpha (serveAll s es).1.prev x)) := by
  have hserve : serve (.request w) (serveAll s es).1 = _ := (serveRequest_of_decode_ok hw _).trans (exec_filter x _)
  have hone : (serveAll (serveAll s es).1 [.request w]).2 = [.ok (filterWord s.alpha (serveAll s es).1.prev x)] := by
    rw [serveAll, hserve, alpha_serveAll]
    rfl
  rw [serveAll_append, hone, List.getLast?_concat]

/-- Settles O31: the events up to the reset leave +0.0 in `prev`, those after it its history, by induction on them, and a FILTER
answers the word that the history continues with. -/
theorem filterHistoryAfterReset : Obligations.FilterHistoryAfterReset := by
  refine ⟨prev_after_reset, fun s before after w x hes hw => ?_, fun alpha y x xs => ⟨history_nil alpha y, ?_⟩⟩
  · rw [← List.cons_append, ← List.append_assoc, getLast?_responses_filter hw, prev_after_reset s before after hes,
      history_concat]
  · rw [history_concat, unpack_filterWord, smoothed]

/-! ### FILTER with alpha = 1.0 -/

theorem unpack_one : unpack 0x3FF0000000000000#64 = one := by decide +kernel

theorem one_sub_one : fsub one one = .fin false 0 0 := by decide +kernel

/-- With alpha = 1.0 the average is `prev` and a zero times the operand. -/
theorem smoothed_one (prev x : F64) :
    smoothed 0x3FF0000000000000#64 prev x = fadd (unpack prev) (fmul (.fin false 0 0) (unpack x)) := by
  rw [smoothed, unpack_one, one_sub_one, fmul_one_left _ (unpack_canonical prev)]

/-- That zero has the operand's sign. -/
theorem smoothed_one_of_fin {x : F64} {neg : Bool} {m k : Nat} (h : unpack x = .fin neg m k) (prev : F64) :
    smoothed 0x3FF0000000000000#64 prev x = fadd (unpack prev) (.fin neg 0 0) := by
  rw [smoothed_one, h, fmul_zero_fin, Bool.false_bne]

theorem addFinite_comm (s : Bool) (u : Nat) (t : Bool) (v : Nat) : addFinite s u t v = addFinite t v s u := by
  rw [addFinite, addFinite, Int.add_comm, Bool.and_comm]

theorem fadd_comm (a b : Fp) : fadd a b = fadd b a := by
  cases a with
  | nan => rw [fadd_nan_left, fadd_nan_right]
  | inf s =>
    cases b with
    | nan => rfl
    | inf t => by_cases h : s = t <;> simp [fadd, h, eq_comm]
    | fin t m k => rfl
  | fin s m k =>
    cases b with
    | nan => rfl
    | inf t => rfl
    | fin t m' k' => exact addFinite_comm _ _ _ _

/-- A zero added to a word that is neither NaN nor -0.0 leaves its value. -/
theorem fadd_unpack_zero {b : F64} (hnan : isNan b = false) (hne : b ≠ 0x8000000000000000#64) (neg : Bool) :
    fadd (unpack b) (.fin neg 0 0) = unpack b := by
  by_cases hfin : isFinite b = true
  · rw [fadd_comm, fadd_zero_unpack hfin hne]
  · cases hv : unpack b with
    | nan => simp [(isNan_iff b).2 hv] at hnan
    | inf s => rfl
    | fin s m k => exact absurd ((isFinite_iff b).2 ⟨s, m, k, hv⟩) hfin

/-- With alpha = 1.0 a finite operand leaves `prev` as it is, unless that is NaN or -0.0. -/
theorem smoothed_one_eq_prev {prev x : F64} (hx : isFinite x = true) (hnan : isNan prev = false)
    (hne : prev ≠ 0x8000000000000000#64) : smoothed 0x3FF0000000000000#64 prev x = unpack prev := by
  obtain ⟨neg, m, k, hv⟩ := (isFinite_iff x).1 hx
  rw [smoothed_one_of_fin hv, fadd_unpack_zero hnan hne]

/-- With alpha = 1.0 a finite operand leaves a `prev` of -0.0 a zero, of the operand's sign. -/
theorem smoothed_one_negZero {x : F64} {neg : Bool} {m k : Nat} (h : unpack x = .fin neg m k) :
    smoothed 0x3FF0000000000000#64 0x8000000000000000#64 x = .fin neg 0 0 := by
  rw [smoothed_one_of_fin h, unpack_negZero, fadd_zeros, Bool.true_and]

theorem orderKey_zero (neg : Bool) (k : Nat) : orderKey (.fin neg 0 k) = some 0 := by
  cases neg <;> simp [orderKey, signed, units]

/-- With alpha = 1.0 a `prev` of +0.0 stays +0.0 under finite operands. -/
theorem history_one_posZero (xs : List F64) (hxs : ∀ x ∈ xs, isFinite x = true) :
    history 0x3FF0000000000000#64 posZero xs = posZero := by
  induction xs with
  | nil => rfl
  | cons x xs ih =>
    obtain ⟨hx, hxs⟩ := List.forall_mem_cons.1 hxs
    have hstay : filterWord 0x3FF0000000000000#64 posZero x = posZero := by
      rw [filterWord, smoothed_one_eq_prev hx isNan_posZero (by decide), pack_unpack _ _ (by rw [unpack_posZero]; exact nofun)]
    rw [history_cons, hstay, ih hxs]

/-- Settles O29: with alpha = 1.0 FILTER adds a zero to `prev`, which only -0.0 does not absorb; a weight of zero times an operand
that is not finite is NaN. -/
theorem alphaOneHoldsPrev : Obligations.AlphaOneHoldsPrev := by
  refine ⟨by decide +kernel, by decide +kernel, fun x s halpha hx hprev => ?_, history_one_posZero, fun x s halpha hx => ?_⟩
  · by_cases hne : s.prev = 0x8000000000000000#64
    · obtain ⟨neg, m, k, hv⟩ := (isFinite_iff x).1 hx
      refine ⟨_, exec_filter x s, ?_, fun h => absurd hne h⟩
      rw [unpack_filterWord, halpha, hne, smoothed_one_negZero hv, unpack_negZero, orderKey_zero, orderKey_zero]
    · have hnan : unpack s.prev ≠ .nan := fun h => by simp [(isNan_iff _).2 h] at hprev
      refine ⟨s.prev, exec_filter_of_smoothed hnan ?_, rfl, fun _ => rfl⟩
      rw [halpha, smoothed_one_eq_prev hx hprev hne]
  · refine ⟨_, exec_filter x s, ?_⟩
    rw [← Bool.not_eq_true, isFinite_iff_isFiniteValue] at hx
    rw [isNan_filterWord_iff, halpha, smoothed_one, fmul_zero_of_not_isFiniteValue hx, fadd_nan_right]

end Sys2Proof.Machine
end

section
/-! PROOFS. binary64: rounding is to nearest, ties to even, and overflows half a unit in the last place past the largest value
(spec/00_scope.md R13); words and values correspond (spec/20_memory.md R42). -/

namespace Sys2Proof.Machine

/-! ### Units -/

theorem units_pos {m : Nat} (hm : 0 < m) (k : Nat) : 0 < units m k := Nat.mul_pos hm (Nat.two_pow_pos k)

theorem le_units (m k : Nat) : m ≤ units m k := Nat.le_mul_of_pos_right m (Nat.two_pow_pos k)

theorem mul_units (a m k : Nat) : a * units m k = units (a * m) k := (Nat.mul_assoc a m _).symm

theorem units_shift (m j k : Nat) : units (m * 2 ^ j) k = units m (j + k) := by
  rw [units, units, Nat.pow_add, Nat.mul_assoc]

theorem units_mono {m m' k k' : Nat} (hm : m ≤ m') (hk : k ≤ k') : units m k ≤ units m' k' :=
  Nat.mul_le_mul hm (Nat.pow_le_pow_right Nat.two_pos hk)

theorem le_of_units_le {m m' k : Nat} (h : units m k ≤ units m' k) : m ≤ m' :=
  Nat.le_of_mul_le_mul_right h (Nat.two_pow_pos k)

/-! ### Overflow -/

/-- Above the lowest binade the exact value is at least 2^52 steps of the rounding exponent. -/
theorem pow_steps_le (n : Nat) {d : Nat} (hd : 0 < d) :
    roundExponent n d = 0 ∨ 2 ^ 52 * (d * 2 ^ roundExponent n d) ≤ n :=
  (quotient_bounds n d).2.imp_right (Nat.le_div_iff_mul_le (Nat.mul_pos hd (Nat.two_pow_pos _))).1

theorem two_mul_two_pow_le {a b : Nat} (h : a < b) : 2 * 2 ^ a ≤ 2 ^ b := by
  rw [← Nat.pow_succ']
  exact Nat.pow_le_pow_right (by omega) h

/-- Where rounding answers an infinity, the exact value is past the threshold: the exponent is past the last one, or the quotient
was rounded up to the last one's 2^53. -/
theorem threshold_le_of_roundUnits_inf {neg : Bool} {n d : Nat} (hd : 0 < d) (h : roundUnits neg n d = .inf neg) :
    d * units (2 ^ 54 - 1) 2045 ≤ 2 * n := by
  obtain ⟨q, -, hup, -, -, -, ⟨-, hbig | ⟨heq, rfl⟩⟩ | ⟨m, k, hfin, -⟩⟩ := roundUnits_spec neg n d hd
  · have hsteps := (pow_steps_le n hd).resolve_left (by omega)
    have hstep : d * (2 * 2 ^ 2045) ≤ d * 2 ^ roundExponent n d := Nat.mul_le_mul_left d (two_mul_two_pow_le hbig)
    rw [Nat.mul_left_comm] at hstep
    rw [units, Nat.mul_left_comm]
    omega
  · rw [heq] at hup
    rw [units, Nat.mul_left_comm]
    omega
  · cases h.symm.trans hfin

/-- Where rounding answers a finite value, the exact value is below the threshold: below the last exponent by far, and at the last
one because 2^53 - 1 is odd, so that a tie there would go up. -/
theorem lt_threshold_of_roundUnits_fin {neg : Bool} {n d m k : Nat} (hd : 0 < d) (h : roundUnits neg n d = .fin neg m k) :
    2 * n < d * units (2 ^ 54 - 1) 2045 := by
  obtain ⟨q, hlow, -, htie, hq, hnormal, ⟨hinf, -⟩ | ⟨m', k', -, ⟨hm, hk, -⟩, hu, -⟩⟩ := roundUnits_spec neg n d hd
  · cases h.symm.trans hinf
  have hlargest : units q (roundExponent n d) ≤ units (2 ^ 53 - 1) 2045 := by
    rw [← hu]
    exact units_mono (by omega) hk
  have hpos := Nat.mul_pos hd (Nat.two_pow_pos 2045)
  rw [units, Nat.mul_left_comm]
  rcases Nat.lt_trichotomy (roundExponent n d) 2045 with hlt | heq | hgt
  · have hstep : d * (2 * 2 ^ roundExponent n d) ≤ d * 2 ^ 2045 := Nat.mul_le_mul_left d (two_mul_two_pow_le hlt)
    have hquot := Nat.mul_le_mul_left (d * 2 ^ roundExponent n d) (show 2 * q + 1 ≤ 2 ^ 54 + 1 by omega)
    rw [Nat.mul_left_comm] at hstep
    omega
  · rw [heq] at hlargest hlow htie
    have hq' := le_of_units_le hlargest
    have hquot := Nat.mul_le_mul_left (d * 2 ^ 2045) (show 2 * q + 1 ≤ 2 ^ 54 - 1 by omega)
    by_contra hge
    have heven := htie (.inl (by omega))
    have hless := Nat.mul_le_mul_left (d * 2 ^ 2045) (show 2 * q + 1 + 1 ≤ 2 ^ 54 - 1 by omega)
    rw [Nat.mul_add_one] at hless
    omega
  · have hstep : 2 * 2 ^ 2045 ≤ 2 ^ roundExponent n d := two_mul_two_pow_le hgt
    have hquot := Nat.mul_le_mul (hnormal.resolve_left (by omega)) hstep
    have hP := Nat.two_pow_pos 2045
    rw [units, units] at hlargest
    omega

theorem roundUnits_inf_or_fin (neg : Bool) (n : Nat) {d : Nat} (hd : 0 < d) :
    roundUnits neg n d = .inf neg ∨ ∃ m k, roundUnits neg n d = .fin neg m k := by
  obtain ⟨q, -, -, -, -, -, ⟨h, -⟩ | ⟨m, k, h, -⟩⟩ := roundUnits_spec neg n d hd
  · exact .inl h
  · exact .inr ⟨m, k, h⟩

theorem roundUnits_eq_inf_iff (neg : Bool) (n : Nat) {d : Nat} (hd : 0 < d) :
    roundUnits neg n d = .inf neg ↔ d * units (2 ^ 54 - 1) 2045 ≤ 2 * n := by
  refine ⟨threshold_le_of_roundUnits_inf hd, fun hle => ?_⟩
  rcases roundUnits_inf_or_fin neg n hd with h | ⟨m, k, h⟩
  · exact h
  · exact absurd (lt_threshold_of_roundUnits_fin hd h) (Nat.not_lt.2 hle)

/-! ### The nearest value -/

/-- Every value is a whole number of steps `2^e`, or stands at least half a step below 2^52 of them. -/
theorem units_multiple_or_below {m : Nat} (hm : m < 2 ^ 53) (k e : Nat) :
    (∃ t, units m k = t * 2 ^ e) ∨ (e ≠ 0 ∧ 2 * units m k + 2 ^ e ≤ 2 ^ 53 * 2 ^ e) := by
  by_cases hk : e ≤ k
  · exact .inl ⟨m * 2 ^ (k - e), by rw [units, Nat.mul_assoc, ← Nat.pow_add, Nat.sub_add_cancel hk]⟩
  · refine .inr ⟨by omega, ?_⟩
    have hstep := Nat.mul_le_mul_left m (two_mul_two_pow_le (Nat.not_le.1 hk))
    have hsig := Nat.mul_le_mul_right (2 ^ e) (show m + 1 ≤ 2 ^ 53 by omega)
    rw [Nat.mul_left_comm] at hstep
    rw [Nat.add_one_mul] at hsig
    rw [units]
    omega

/-- Two different multiples of `D` are at least `D` apart, so a number within half of `D` of one is as far as that from the
other. -/
theorem half_step_le_of_multiple {n D q t : Nat} (hlow : 2 * n ≤ D * (2 * q + 1)) (hup : D * (2 * q) ≤ 2 * n + D) :
    D * t = D * q ∨ D ≤ 2 * ((n : Int) - (D * t : Nat)).natAbs := by
  rw [Nat.mul_add_one, Nat.mul_left_comm] at hlow
  rw [Nat.mul_left_comm] at hup
  rcases Nat.lt_trichotomy t q with h | rfl | h
  · have hgap := Nat.mul_le_mul_left D (show t + 1 ≤ q from h)
    rw [Nat.mul_add_one] at hgap
    omega
  · exact .inl rfl
  · have hgap := Nat.mul_le_mul_left D (show q + 1 ≤ t from h)
    rw [Nat.mul_add_one] at hgap
    omega

/-- No value is nearer to `n / d` than half a step of the rounding exponent, but for the rounded value itself. -/
theorem half_step_le {n d q m k : Nat} (hd : 0 < d) (hm : m < 2 ^ 53)
    (hlow : 2 * n ≤ d * 2 ^ roundExponent n d * (2 * q + 1))
    (hup : d * 2 ^ roundExponent n d * (2 * q) ≤ 2 * n + d * 2 ^ roundExponent n d) :
    d * units m k = d * units q (roundExponent n d) ∨
      d * 2 ^ roundExponent n d ≤ 2 * ((n : Int) - (d * units m k : Nat)).natAbs := by
  have hcomm : ∀ t, d * (t * 2 ^ roundExponent n d) = d * 2 ^ roundExponent n d * t := fun t => by ring
  rcases units_multiple_or_below hm k (roundExponent n d) with ⟨t, ht⟩ | ⟨he, hbelow⟩
  · rw [ht, units, hcomm, hcomm]
    exact half_step_le_of_multiple hlow hup
  · right
    have hsteps := (pow_steps_le n hd).resolve_left he
    have hfar := Nat.mul_le_mul_left d hbelow
    rw [Nat.mul_add, Nat.mul_left_comm, Nat.mul_left_comm d (2 ^ 53)] at hfar
    omega

/-- A finite rounded value is within half a step of the exact one, no other value is nearer than that, and at half a step the
quotient is even. -/
theorem roundUnits_nearest {neg : Bool} {n d m k : Nat} (hd : 0 < d) (h : roundUnits neg n d = .fin neg m k) {m' : Nat}
    (hm' : m' < 2 ^ 53) (k' : Nat) :
    ((n : Int) - (d * units m k : Nat)).natAbs ≤ ((n : Int) - (d * units m' k' : Nat)).natAbs ∧
      (((n : Int) - (d * units m k : Nat)).natAbs = ((n : Int) - (d * units m' k' : Nat)).natAbs →
        units m k = units m' k' ∨ m % 2 = 0) := by
  obtain ⟨q, hlow, hup, htie, -, -, ⟨hinf, -⟩ | ⟨m₀, k₀, hfin, -, hu, hsig⟩⟩ := roundUnits_spec neg n d hd
  · cases h.symm.trans hinf
  cases h.symm.trans hfin
  rw [hu]
  rcases half_step_le (k := k') hd hm' hlow hup with hsame | hfar
  · rw [hsame]
    exact ⟨le_rfl, fun _ => .inl (Nat.eq_of_mul_eq_mul_left hd hsame.symm)⟩
  · have hcomm : d * units q (roundExponent n d) = d * 2 ^ roundExponent n d * q := by rw [units]; ring
    rw [Nat.mul_add_one, Nat.mul_left_comm] at hlow htie
    rw [Nat.mul_left_comm] at hup
    rw [hcomm]
    refine ⟨by omega, fun heq => .inr ?_⟩
    have heven := htie (by omega)
    rcases hsig with rfl | rfl
    · exact heven
    · rfl

/-- Settles O53: the rounded value is within half a step, which no other value beats, and the threshold is where the last
exponent's quotient is rounded up to 2^53. -/
theorem roundingIsToNearestTiesToEven : Obligations.RoundingIsToNearestTiesToEven := by
  refine fun neg n d hd => ⟨fun m k h m' k' hc => ?_, roundUnits_eq_inf_iff neg n hd, roundUnits_inf_or_fin neg n hd⟩
  have hnear := roundUnits_nearest hd h hc.1 k'
  simpa only [Nat.cast_mul] using hnear

/-! ### Words and values -/

/-- Settles O54: packing and unpacking undo each other, off NaN in the one direction and on canonical values in the other. -/
theorem wordsAndValuesCorrespond : Obligations.WordsAndValuesCorrespond := by
  refine ⟨fun nanBits b hb => pack_unpack nanBits b fun hnan => ?_,
    fun nanBits v hc => ⟨unpack_pack nanBits v hc, quietIfNan_pack nanBits v hc⟩, unpack_canonical⟩
  rw [(isNan_iff b).2 hnan] at hb
  cases hb

end Sys2Proof.Machine
end

section
/-! PROOFS. The type-K voltage (spec/42_linearizer.md R122, spec/90_conflicts.md C3) and CORRECT at a pole (R129). -/

namespace Sys2Proof.Machine

/-! ### Rounding a fraction -/

theorem roundsUp_mul_right (n D : Nat) {c : Nat} (hc : 0 < c) : roundsUp (n * c) (D * c) = roundsUp n D := by
  have hrem : 2 * (n * c % (D * c)) = 2 * (n % D) * c := by rw [Nat.mul_mod_mul_right, Nat.mul_assoc]
  simp only [roundsUp, hrem, Nat.mul_div_mul_right _ _ hc, Nat.mul_lt_mul_right hc, Nat.mul_left_inj hc.ne']

/-- Rounding depends on the value of the fraction only. -/
theorem roundUnits_mul_right (neg : Bool) (n d : Nat) {c : Nat} (hc : 0 < c) :
    roundUnits neg (n * c) (d * c) = roundUnits neg n d := by
  have hexp : roundExponent (n * c) (d * c) = roundExponent n d := by
    rw [roundExponent, roundExponent, Nat.mul_div_mul_right _ _ hc]
  simp only [roundUnits, hexp, Nat.mul_right_comm d c, roundsUp_mul_right _ _ hc, Nat.mul_div_mul_right _ _ hc]

/-- What is at least one unit is not rounded to zero. -/
theorem significand_ne_zero_of_roundUnits_fin {neg : Bool} {n d m k : Nat} (hd : 0 < d) (hle : d ≤ n)
    (h : roundUnits neg n d = .fin neg m k) : m ≠ 0 := by
  rintro rfl
  obtain ⟨q, hlow, -, -, -, hnormal, ⟨hinf, -⟩ | ⟨m, k, hfin, -, hu, -⟩⟩ := roundUnits_spec neg n d hd
  · cases h.symm.trans hinf
  cases h.symm.trans hfin
  rw [units, Nat.zero_mul] at hu
  obtain rfl : q = 0 := (Nat.mul_eq_zero.1 hu.symm).resolve_right (Nat.two_pow_pos _).ne'
  rw [hnormal.resolve_right (by omega)] at hlow
  omega

/-- A rounded value of at least 2^52 units differs from the exact one by at most one part in 2^53. -/
theorem roundUnits_relative_error {neg : Bool} {n d m k : Nat} (hd : 0 < d) (hbig : 2 ^ 52 ≤ units m k)
    (h : roundUnits neg n d = .fin neg m k) :
    2 ^ 53 * n ≤ (2 ^ 53 + 1) * (d * units m k) ∧ (2 ^ 53 - 1) * (d * units m k) ≤ 2 ^ 53 * n := by
  obtain ⟨q, hlow, hup, -, -, hnormal, ⟨hinf, -⟩ | ⟨m₀, k₀, hfin, -, hu, -⟩⟩ := roundUnits_spec neg n d hd
  · cases h.symm.trans hinf
  cases h.symm.trans hfin
  have hstep : 2 ^ 52 * 2 ^ roundExponent n d ≤ units m k := by
    rcases hnormal with he | hq
    · rw [he, Nat.pow_zero, Nat.mul_one]
      exact hbig
    · rw [hu]
      exact Nat.mul_le_mul_right _ hq
  have hhalf := Nat.mul_le_mul_left d hstep
  have hcomm : d * units q (roundExponent n d) = d * 2 ^ roundExponent n d * q := by rw [units]; ring
  rw [Nat.mul_left_comm] at hhalf
  rw [Nat.mul_add_one, Nat.mul_left_comm, ← hcomm, ← hu] at hlow
  rw [Nat.mul_left_comm, ← hcomm, ← hu] at hup
  omega

/-! ### The type-K voltage -/

theorem natAbs_signed (neg : Bool) (u : Nat) : (signed neg u).natAbs = u := by
  cases neg <;> simp [signed]

theorem unpack_scaleK : unpack scaleK = .fin false 5948498503019027 1017 := by decide +kernel

/-- The type-K voltage is a quarter of the code times SCALE(K), rounded once: the temperature is exact. -/
theorem voltage_scaleK (frame : Frame) :
    voltage frame scaleK =
      roundUnits (decide (tcCode frame < 0)) ((tcCode frame).natAbs * units 5948498503019027 1017) 4 := by
  obtain ⟨m, k, happrox, -, hu⟩ := approxCelsius_exact frame
  rw [voltage, happrox, unpack_scaleK, fmul, Bool.bne_false, ← roundUnits_mul_right _ _ oneUnits (show 0 < 4 by omega),
    ← roundUnits_mul_right _ _ 4 oneUnits_pos, Nat.mul_right_comm (units m k), hu, Nat.mul_right_comm, Nat.mul_comm oneUnits]

/-- The type-K voltage of a reading of at most 2048 °C is far below the largest binary64 value. -/
theorem voltage_scaleK_fin (frame : Frame) : ∃ m k, voltage frame scaleK = .fin (decide (tcCode frame < 0)) m k := by
  rw [voltage_scaleK]
  refine (roundUnits_inf_or_fin _ _ (by omega)).resolve_left fun hinf => ?_
  have hle := (roundUnits_eq_inf_iff _ _ (by omega)).1 hinf
  have hrange := tcCode_range frame
  have hsmall : 2 * ((tcCode frame).natAbs * units 5948498503019027 1017) ≤ units (2 ^ 54 - 1) 2045 :=
    calc 2 * ((tcCode frame).natAbs * units 5948498503019027 1017)
        = units (2 * ((tcCode frame).natAbs * 5948498503019027)) 1017 := by rw [mul_units, mul_units]
      _ ≤ units (2 ^ 53 * 2 ^ 14) 1017 := units_mono (by omega) le_rfl
      _ = units (2 ^ 53) (14 + 1017) := units_shift _ _ _
      _ ≤ units (2 ^ 54 - 1) 2045 := units_mono (by omega) (by omega)
  have hpos : 0 < units (2 ^ 54 - 1) 2045 := units_pos (by omega) _
  omega

/-- Settles O24: a finite value with the code's sign, which is zero for code 0 and at least one unit for any other. -/
theorem typeKVoltageIsFiniteWithSign : Obligations.TypeKVoltageIsFiniteWithSign := by
  intro frame
  obtain ⟨m, k, hv⟩ := voltage_scaleK_fin frame
  have hround := (voltage_scaleK frame).symm.trans hv
  have hne : tcCode frame ≠ 0 → m ≠ 0 := fun hcode => by
    have hunits : 4 ≤ units 5948498503019027 1017 := le_trans (by omega) (le_units _ _)
    have habs : 1 ≤ (tcCode frame).natAbs := by omega
    exact significand_ne_zero_of_roundUnits_fin (by omega) (hunits.trans (Nat.le_mul_of_pos_left _ habs)) hround
  refine ⟨_, m, k, hv, fun hzero => ⟨by simp [hzero], ?_⟩, fun hneg => ⟨by simp [hneg], hne (by omega)⟩,
    fun hpos => ⟨by simp; omega, hne (by omega)⟩⟩
  rw [hzero, Int.natAbs_zero, Nat.zero_mul, roundUnits_zero] at hround
  cases hround
  rfl

/-- A value with a significand of 53 bits and an exponent `k` above SCALE(K)'s is the type-K voltage of a code only if it is within
one part in 2^53 of a quarter of the code times SCALE(K); counted in units of SCALE(K)'s last place. -/
theorem code_bounds_of_voltage_scaleK {frame : Frame} {neg : Bool} {m k : Nat} (hm : 2 ^ 52 ≤ m)
    (h : orderKey (voltage frame scaleK) = orderKey (.fin neg m (k + 1017))) :
    2 ^ 53 * ((tcCode frame).natAbs * 5948498503019027) ≤ (2 ^ 53 + 1) * (4 * (m * 2 ^ k)) ∧
      (2 ^ 53 - 1) * (4 * (m * 2 ^ k)) ≤ 2 ^ 53 * ((tcCode frame).natAbs * 5948498503019027) := by
  obtain ⟨m', k', hv⟩ := voltage_scaleK_fin frame
  have hround := (voltage_scaleK frame).symm.trans hv
  rw [hv, orderKey, orderKey, Option.some.injEq] at h
  have hu : units m' k' = units m (k + 1017) := by
    have habs := congrArg Int.natAbs h
    rwa [natAbs_signed, natAbs_signed] at habs
  have hbig : 2 ^ 52 ≤ units m' k' := by
    rw [hu]
    exact hm.trans (le_units m _)
  have herr := roundUnits_relative_error (by omega) hbig hround
  simp only [hu, ← units_shift m k, mul_units] at herr
  exact ⟨le_of_units_le herr.1, le_of_units_le herr.2⟩

theorem unpack_sourceRegionLower : unpack 0xC00C6E978D4FDF3B#64 = .fin true 8002896537837371 (6 + 1017) := by decide +kernel
theorem unpack_sourceRegionUpper : unpack 0x4010624DD2F1A9FC#64 = .fin false 4611686018427388 (7 + 1017) := by decide +kernel

/-- Settles O25: -3.554 mV would be code -344.4 and 4.096 mV code 396.9, and rounding does not reach the whole codes beside them. -/
theorem noTypeKVoltageIsOnASourceBoundary : Obligations.NoTypeKVoltageIsOnASourceBoundary := by
  intro frame
  rw [unpack_sourceRegionLower, unpack_sourceRegionUpper]
  refine ⟨fun h => ?_, fun h => ?_⟩
  · have hbounds := code_bounds_of_voltage_scaleK (by omega) h
    omega
  · have hbounds := code_bounds_of_voltage_scaleK (by omega) h
    omega

/-! ### CORRECT at a pole -/

theorem fdiv_zero_zero (s t : Bool) (j k : Nat) : fdiv (.fin s 0 j) (.fin t 0 k) = .nan := by simp [fdiv]

/-- What is neither zero nor NaN, divided by a zero, is an infinity. -/
theorem fdiv_zero_of_ne {a : Fp} (hnan : a ≠ .nan) (hzero : ∀ n j, a ≠ .fin n 0 j) (t : Bool) (k : Nat) :
    ∃ n, fdiv a (.fin t 0 k) = .inf n := by
  cases a with
  | nan => exact absurd rfl hnan
  | inf s => exact ⟨_, rfl⟩
  | fin s m j =>
    have hm : m ≠ 0 := by
      rintro rfl
      exact hzero s j rfl
    exact ⟨s != t, by simp [fdiv, hm]⟩

/-- Settles O26: the numerator over a zero is NaN or an infinity, and a finite `To` added to it leaves it that. -/
theorem polesGiveInfinityOrNan : Obligations.PolesGiveInfinityOrNan := by
  intro frame t s scale table neg k hentry hTo v r dV num den hden
  obtain ⟨r', b, hr, hexec, -, hb⟩ := exec_correct_of_storeEntry hentry frame
  obtain rfl : r = r' := Option.some.inj ((records_getElem?_select table v).symm.trans hr)
  obtain ⟨sTo, mTo, kTo, hTo⟩ := (isFinite_iff _).1 hTo
  have hpoly : unpack b = fadd (.fin sTo mTo kTo) (fdiv num (.fin neg 0 k)) := by
    rw [hb, ← hden, ← hTo]
    rfl
  refine ⟨b, hexec, ?_, fun hnan hzero => ?_⟩
  · rintro ⟨n, j, hnum⟩
    rw [isNan_iff, hpoly, hnum, fdiv_zero_zero, fadd_nan_right]
  · obtain ⟨n, hinf⟩ := fdiv_zero_of_ne hnan hzero neg k
    exact ⟨n, by rw [hpoly, hinf]; rfl⟩

end Sys2Proof.Machine
end
